-- ==== Sys2Proof/Word.lean ====
section
/-! DEFINITION. The widths of ICA-FX as bit vectors (00_scope.md R6, R7). -/

namespace Sys2Proof

/-- A byte of the frame or of the array register. -/
abbrev Byte := BitVec 8

/-- A 16-bit value: a cursor register, the running sum, an immediate. -/
abbrev Half := BitVec 16

/-- A 32-bit value: a general register (`XLEN`, R6) or a command word (`CMDW`, R6). -/
abbrev Word := BitVec 32

end Sys2Proof
end

