-- ==== Sys2Proof/Syntax.lean ====
section
/-! DEFINITION. The seventeen commands of the opcode table (30_encoding.md R57), their operands, and the pseudo-instructions (R64). -/

namespace Sys2Proof

/-- A general register number, 0..15 (10_state.md R15). -/
abbrev Reg := Fin 16

/-- The control and status registers that `RDC` and HostRead name (10_state.md R22).
A number above 6 names none, so `RDC` of it is no instruction (30_encoding.md R61). -/
inductive Csr where
  | status
  | off
  | rem
  | flen
  | sum
  | lane
  | alen
deriving DecidableEq, Repr

/-- The seventeen mnemonics (30_encoding.md R57). -/
inductive Op where
  | nop
  | openCall
  | closeCall
  | li
  | rdc
  | ext
  | rdu8
  | rdu16
  | rdu32
  | rda
  | skip
  | limit
  | ckclr
  | ckadd
  | ckget
  | ckvfy
  | cksum
deriving DecidableEq, Repr

/-- A command with its operands, one constructor per row of the opcode table (30_encoding.md R57).
`openCall` and `closeCall` are `OPEN` and `CLOSE`. -/
inductive Instr where
  | nop
  | openCall
  | closeCall
  | li (rd : Reg) (imm16 : Half)
  | rdc (rd : Reg) (csr : Csr)
  | ext (rd rs1 : Reg) (lsb : BitVec 5) (width : BitVec 6)
  | rdu8 (rd : Reg)
  | rdu16 (rd : Reg)
  | rdu32 (rd : Reg)
  | rda (n : Half)
  | skip (n : Half)
  | limit (n : Half)
  | ckclr
  | ckadd (rs1 rs2 : Reg)
  | ckget (rd : Reg)
  | ckvfy (rd : Reg)
  | cksum (rd rs1 rs2 : Reg)
deriving DecidableEq, Repr

/-- The row of the opcode table an instruction belongs to (R57). -/
def Instr.op : Instr → Op
  | .nop => .nop
  | .openCall => .openCall
  | .closeCall => .closeCall
  | .li _ _ => .li
  | .rdc _ _ => .rdc
  | .ext _ _ _ _ => .ext
  | .rdu8 _ => .rdu8
  | .rdu16 _ => .rdu16
  | .rdu32 _ => .rdu32
  | .rda _ => .rda
  | .skip _ => .skip
  | .limit _ => .limit
  | .ckclr => .ckclr
  | .ckadd _ _ => .ckadd
  | .ckget _ => .ckget
  | .ckvfy _ => .ckvfy
  | .cksum _ _ _ => .cksum

/-! The pseudo-instructions: "Each is another spelling of one command; none adds behaviour" (R64). -/

/-- `RDMAC` is `RDA 6`. -/
def Instr.rdmac : Instr := .rda 6

/-- `RDIP4` is `RDA 4`. -/
def Instr.rdip4 : Instr := .rda 4

/-- `RDIP6` is `RDA 16`. -/
def Instr.rdip6 : Instr := .rda 16

/-- `EXTB rd, rs1, bit` is `EXT rd, rs1, bit, 1`. -/
def Instr.extb (rd rs1 : Reg) (bit : BitVec 5) : Instr := .ext rd rs1 bit 1

end Sys2Proof
end

