-- ==== Sys2Proof/WellFormed.lean ====
section
/-! DEFINITION. The operand-value constraints of the commands (30_encoding.md R57 column "extra constraint", R61). -/

namespace Sys2Proof

/-- `RDA n` takes 1 <= n <= 16 (R61). -/
def rdaCountOk (n : Half) : Bool := 1 ≤ n.toNat && n.toNat ≤ 16

/-- `EXT` takes 1 <= width <= 32 and lsb + width <= 32, on naturals (R61). -/
def extFieldOk (lsb : BitVec 5) (width : BitVec 6) : Bool :=
  1 ≤ width.toNat && width.toNat ≤ 32 && lsb.toNat + width.toNat ≤ 32

/-- An instruction some word encodes. `SKIP 0`, `LIMIT 0` and every register number are legal (R61).
The limit csr <= 6 of `RDC` is the type `Csr` itself. -/
def Instr.wellFormed : Instr → Bool
  | .nop => true
  | .openCall => true
  | .closeCall => true
  | .li _ _ => true
  | .rdc _ _ => true
  | .ext _ _ lsb width => extFieldOk lsb width
  | .rdu8 _ => true
  | .rdu16 _ => true
  | .rdu32 _ => true
  | .rda n => rdaCountOk n
  | .skip _ => true
  | .limit _ => true
  | .ckclr => true
  | .ckadd _ _ => true
  | .ckget _ => true
  | .ckvfy _ => true
  | .cksum _ _ _ => true

end Sys2Proof
end

