-- ==== Sys2Proof/Decode.lean ====
section
/-! DEFINITION. The decoder, total on 32-bit words, and the encoder (30_encoding.md R53 to R61), both over the one table of opcodes and formats (R55, R57). -/

namespace Sys2Proof

/-! ## The table (R55, R57) -/

/-- The seven formats (R55). -/
inductive Format where
  | N
  | D
  | I
  | U
  | S
  | R
  | X
deriving DecidableEq, Repr

/-- The fixed bits of a format: a 1 where the row fixes the bit (R55). -/
def Format.mask : Format → Word
  | .N => 0xFFFFFFFF#32
  | .D => 0xFF0FFFFF#32
  | .I => 0xFF0F0000#32
  | .U => 0xFFFF0000#32
  | .S => 0xFFF00FFF#32
  | .R => 0xFF000FFF#32
  | .X => 0xFF00E0C0#32

/-- The opcode of each row (R57). -/
def Op.code : Op → BitVec 8
  | .nop => 0x00#8
  | .openCall => 0x01#8
  | .closeCall => 0x02#8
  | .li => 0x10#8
  | .rdc => 0x11#8
  | .ext => 0x12#8
  | .rdu8 => 0x20#8
  | .rdu16 => 0x21#8
  | .rdu32 => 0x22#8
  | .rda => 0x23#8
  | .skip => 0x24#8
  | .limit => 0x25#8
  | .ckclr => 0x30#8
  | .ckadd => 0x31#8
  | .ckget => 0x32#8
  | .ckvfy => 0x33#8
  | .cksum => 0x34#8

/-- The format of each row (R57). -/
def Op.format : Op → Format
  | .nop => .N
  | .openCall => .N
  | .closeCall => .N
  | .li => .I
  | .rdc => .I
  | .ext => .X
  | .rdu8 => .D
  | .rdu16 => .D
  | .rdu32 => .D
  | .rda => .U
  | .skip => .U
  | .limit => .U
  | .ckclr => .N
  | .ckadd => .S
  | .ckget => .D
  | .ckvfy => .D
  | .cksum => .R

/-- The rows of the opcode table, in its order (R57). -/
def Op.all : List Op :=
  [.nop, .openCall, .closeCall, .li, .rdc, .ext, .rdu8, .rdu16, .rdu32, .rda, .skip, .limit,
   .ckclr, .ckadd, .ckget, .ckvfy, .cksum]

/-- "the one row of rule R57 whose op equals w[31:24], if there is one" (R58). -/
def Op.ofCode? (c : BitVec 8) : Option Op := Op.all.find? fun op => op.code == c

/-- The word of a row with every free field 0 (R57 column "match"). -/
def Op.matchWord (op : Op) : Word := op.code ++ 0#24

/-! ## Fields of a word (R54) -/

/-- `op`, bits 31:24. -/
def opField (w : Word) : BitVec 8 := w.extractLsb' 24 8

/-- `rd`, bits 23:20. -/
def rdField (w : Word) : Reg := (w.extractLsb' 20 4).toFin

/-- `rs1`, bits 19:16. -/
def rs1Field (w : Word) : Reg := (w.extractLsb' 16 4).toFin

/-- `rs2`, bits 15:12. -/
def rs2Field (w : Word) : Reg := (w.extractLsb' 12 4).toFin

/-- `imm16`, bits 15:0. -/
def immField (w : Word) : Half := w.extractLsb' 0 16

/-- `lsb`, bits 12:8. -/
def lsbField (w : Word) : BitVec 5 := w.extractLsb' 8 5

/-- `width`, bits 5:0: "the width itself, not the width minus one" (R56). -/
def widthField (w : Word) : BitVec 6 := w.extractLsb' 0 6

/-! ## Control register numbers (10_state.md R22) -/

/-- The number of a control register (R22). -/
def Csr.number : Csr → Half
  | .status => 0
  | .off => 1
  | .rem => 2
  | .flen => 3
  | .sum => 4
  | .lane => 5
  | .alen => 6

/-- The seven control registers in the order of their numbers (R22). -/
def Csr.all : List Csr := [.status, .off, .rem, .flen, .sum, .lane, .alen]

/-- The control register with a number, none above 6 (R22, R61). -/
def Csr.ofNumber? (n : Half) : Option Csr := Csr.all.find? fun c => c.number == n

/-! ## Decode (R58) -/

/-- Why a word is no command: each is the one `IllegalCommand` of 60_exceptions.md R111. -/
inductive Illegal where
  /-- Its `op` is in no row of R57 (R60). Safe: the spec gives the effect, code ILL. -/
  | reservedOpcode
  /-- It has a 1 in a bit its row's mask fixes to 0 (R59). Safe: the spec gives the effect, code ILL. -/
  | strayBits
  /-- An operand is outside its limits (R61). Safe: the spec gives the effect, code ILL. -/
  | operandRange
deriving DecidableEq, Repr

/-- The operands of a row read out of a word, none where `RDC` names no control register (R56, R58). -/
def operands (op : Op) (w : Word) : Option Instr :=
  match op with
  | .nop => some .nop
  | .openCall => some .openCall
  | .closeCall => some .closeCall
  | .li => some (.li (rdField w) (immField w))
  | .rdc => (Csr.ofNumber? (immField w)).map (.rdc (rdField w))
  | .ext => some (.ext (rdField w) (rs1Field w) (lsbField w) (widthField w))
  | .rdu8 => some (.rdu8 (rdField w))
  | .rdu16 => some (.rdu16 (rdField w))
  | .rdu32 => some (.rdu32 (rdField w))
  | .rda => some (.rda (immField w))
  | .skip => some (.skip (immField w))
  | .limit => some (.limit (immField w))
  | .ckclr => some .ckclr
  | .ckadd => some (.ckadd (rs1Field w) (rs2Field w))
  | .ckget => some (.ckget (rdField w))
  | .ckvfy => some (.ckvfy (rdField w))
  | .cksum => some (.cksum (rdField w) (rs1Field w) (rs2Field w))

/-- `Decode(w)` (R58): "a total function from 32-bit words to either one decoded command
(mnemonic and field values) or illegal". It looks at the word only. -/
def decode (w : Word) : Except Illegal Instr :=
  match Op.ofCode? (opField w) with
  | none => .error .reservedOpcode
  | some op =>
    if w &&& op.format.mask = op.matchWord then
      match operands op w with
      | some i => if i.wellFormed then .ok i else .error .operandRange
      | none => .error .operandRange
    else .error .strayBits

/-! ## Encode (R54, R55) -/

/-- A word from its `op`, `rd`, `rs1` and the 16 bits below them (R54). -/
def assemble (op : BitVec 8) (rd rs1 : Reg) (low : Half) : Word :=
  op ++ BitVec.ofFin (w := 4) rd ++ BitVec.ofFin (w := 4) rs1 ++ low

/-- The low half of formats S and R: `rs2` in bits 15:12, the rest 0 (R55). -/
def lowRs2 (rs2 : Reg) : Half := BitVec.ofFin (w := 4) rs2 ++ 0#12

/-- The low half of format X: 000, `lsb` in bits 12:8, 00, `width` in bits 5:0 (R55). -/
def lowField (lsb : BitVec 5) (width : BitVec 6) : Half := 0#3 ++ lsb ++ 0#2 ++ width

/-- The word of an instruction (R54, R55, R57). -/
def encode (i : Instr) : Word :=
  match i with
  | .nop => assemble i.op.code 0 0 0
  | .openCall => assemble i.op.code 0 0 0
  | .closeCall => assemble i.op.code 0 0 0
  | .li rd imm16 => assemble i.op.code rd 0 imm16
  | .rdc rd csr => assemble i.op.code rd 0 csr.number
  | .ext rd rs1 lsb width => assemble i.op.code rd rs1 (lowField lsb width)
  | .rdu8 rd => assemble i.op.code rd 0 0
  | .rdu16 rd => assemble i.op.code rd 0 0
  | .rdu32 rd => assemble i.op.code rd 0 0
  | .rda n => assemble i.op.code 0 0 n
  | .skip n => assemble i.op.code 0 0 n
  | .limit n => assemble i.op.code 0 0 n
  | .ckclr => assemble i.op.code 0 0 0
  | .ckadd rs1 rs2 => assemble i.op.code 0 rs1 (lowRs2 rs2)
  | .ckget rd => assemble i.op.code rd 0 0
  | .ckvfy rd => assemble i.op.code rd 0 0
  | .cksum rd rs1 rs2 => assemble i.op.code rd rs1 (lowRs2 rs2)

/-! ## The table's own numbering, for the host -/

/-- The command word whose bits the opcode table numbers as `w`: a command is one 32-bit word (R53),
bits above `nbits` are 0. -/
def tableWord (nbits w : Nat) : Word := BitVec.ofNat 32 (w % 2 ^ nbits)

/-- The instruction the decoder reads from an opcode-table word. -/
def decodeTableWord (nbits w : Nat) : Option Instr :=
  match decode (tableWord nbits w) with
  | .ok i => some i
  | .error _ => none

end Sys2Proof
end

