-- ==== Sys2Proof/Config.lean ====
section
/-! DEFINITION. What an ICA-FX instance fixes: the one open parameter `FRAME_CAP` (00_scope.md R6, 93_implementation_defined.md U8). -/

namespace Sys2Proof.Config

/-- The values `FRAME_CAP` may have: "any natural with 1 <= FRAME_CAP <= 65535" (R6).
The parameter itself is the field `State.frameCap`, so that claims quantify over it (U8). -/
abbrev ValidFrameCap (n : Nat) : Prop := 1 ≤ n ∧ n ≤ 65535

/-- The default the spec gives `FRAME_CAP` (R6). -/
def frameCapDefault : Nat := 65535

end Sys2Proof.Config
end

