-- ==== Sys2Proof/Machine/State.lean ====
section
/-! DEFINITION. The state of one ICA-FX instance (10_state.md R13), the host's actions and what the block returns to them (20_memory.md R42 to R46), the reasons a step can end otherwise, and the state after reset (R25). -/

namespace Sys2Proof.Machine

/-- The frame store `FB` as the cells that hold a byte, offsets strictly rising (10_state.md R18).
An offset with no cell holds no byte: "Only those bytes are state". -/
abbrev Memory := List Host.Cell

/-- "The complete state of one ICA-FX instance is the following, and nothing else" (R13). -/
structure Block where
  /-- `x[0]` .. `x[15]`, the general registers (R15). -/
  x : Vector Word 16
  /-- `ARR[0]` .. `ARR[15]`, the array register (R16). -/
  arr : Vector Byte 16
  /-- `ALEN`, how many bytes of `ARR` the last array read filled (R16). -/
  alen : BitVec 5
  /-- `FB`, the frame bytes (R18). -/
  fb : Memory
  /-- `FLEN`, the frame's length in bytes (R18). -/
  flen : Half
  /-- `OFF`, the cursor offset (R19). -/
  off : Half
  /-- `REM`, the bytes the cursor may still read (R19). -/
  rem : Half
  /-- `SUM`, the running one's-complement sum (R17). -/
  sum : Half
  /-- `LANE`, 0 if the next byte fed is a high byte, 1 if a low byte (R17). -/
  lane : BitVec 1
  /-- `STATUS`, the mode bit and four sticky error bits (R21). -/
  status : Byte
deriving DecidableEq, Repr

/-- The state after reset and after every `CLOSE`, all of it 0 and the frame empty (R25, R127, R128). -/
def Block.reset : Block where
  x := Vector.replicate 16 0
  arr := Vector.replicate 16 0
  alen := 0
  fb := []
  flen := 0
  off := 0
  rem := 0
  sum := 0
  lane := 0
  status := 0

/-- The completion codes (60_exceptions.md R110). -/
inductive Code where
  | done
  | oob
  | ill
  | seq
deriving DecidableEq, Repr

/-- The three exceptions a command can raise (00_scope.md R10, 60_exceptions.md R111 to R113).
None stops the machine: each is a next state. -/
inductive Exn where
  | illegalCommand
  | sequenceError
  | outOfBounds
deriving DecidableEq, Repr

/-- What HostRead can name (20_memory.md R45): a general register, a byte of `ARR`, a control register. -/
inductive Target where
  | reg (i : Reg)
  | arr (i : Fin 16)
  | csr (c : Csr)
deriving DecidableEq, Repr

/-- "The host acts on an instance only through four actions" (20_memory.md R42). -/
inductive HostAction where
  | push (b : Byte)
  | command (w : Word)
  | read (t : Target)
  | reset
deriving DecidableEq, Repr

/-- What the block returns to the host: of HostPush (R43), of HostCommand (R44, R110), of HostRead (R45). -/
inductive HostResult where
  | accepted
  | refused
  | completed (c : Code)
  | word (v : Word)
  | byte (b : Byte)
deriving DecidableEq, Repr

/-- One instance with what stands around it.
`frameCap` is the parameter FRAME_CAP, which no step changes (log entry 1).
`pending` is the host's action stream (log entry 2).
`results` is what the block has returned, in order (log entry 3).
The last three are the model's own, not state of the block (10_state.md R27). -/
structure State where
  block : Block
  frameCap : Nat
  pending : List HostAction
  results : List HostResult
deriving DecidableEq, Repr

/-- The machine right after reset: every piece of state as R25 has it, FRAME_CAP at the spec's default (R6),
no action given and nothing returned yet. -/
def State.reset : State where
  block := Block.reset
  frameCap := Config.frameCapDefault
  pending := []
  results := []

/-- Why the machine stops. No rule of the spec stops it. -/
inductive Fault where
  /-- A command reads a frame offset that holds no byte.
  Raised by the window and region reads of Machine/Ops.lean, and only in a state that breaks 10_state.md R24,
  which no run from reset reaches.
  Safe: the model stops where the spec gives no behaviour (log entry 4). -/
  | frameByteAbsent
deriving DecidableEq, Repr

/-- Why an instruction has no meaning here. -/
inductive Refusal where
  /-- An instruction with no meaning in the model, by its mnemonic. Raised by arms of `exec` only.
  Safe: nothing is claimed of it. -/
  | notModelled (mnemonic : String)
deriving DecidableEq, Repr

/-- What the rule of a command comes to, before the wrapper of 42_frame_and_register_control.md R100 finishes it. -/
inductive Result where
  /-- The rule made all its writes. -/
  | done (b : Block)
  /-- The rule raised an exception before its first write (00_scope.md R10). -/
  | raise (e : Exn)
  /-- The rule met a state no rule of the spec speaks of. -/
  | stop (f : Fault)
deriving DecidableEq, Repr

end Sys2Proof.Machine
end

