-- ==== Sys2Proof/Machine/Flags.lean ====
section
/-! DEFINITION. The bits of STATUS (10_state.md R21), the only flags of the block (R20), with the completion codes' numbers and sticky bits (60_exceptions.md R110). -/

namespace Sys2Proof.Machine

/-- The named bits of STATUS (R21). -/
inductive Flag where
  | oob
  | ill
  | seq
  | wrerr
  | act
deriving DecidableEq, Repr

/-- Where a flag stands in STATUS (R21). -/
def Flag.bit : Flag → Nat
  | .oob => 0
  | .ill => 1
  | .seq => 2
  | .wrerr => 3
  | .act => 7

/-- The value of a flag. -/
def Block.flag (b : Block) (f : Flag) : Bool := b.status.getLsbD f.bit

/-- `STATUS.<bit> <- 1`: "Setting a bit that is already set changes nothing" (R115). -/
def Block.setFlag (b : Block) (f : Flag) : Block :=
  { b with status := b.status ||| (1#8 <<< f.bit) }

/-- ACTIVE (`STATUS.ACT` = 1) or IDLE (0) (60_exceptions.md R121). -/
def Block.active (b : Block) : Bool := b.flag .act

/-- The number of a completion code (R110). -/
def Code.number : Code → Nat
  | .done => 0
  | .oob => 1
  | .ill => 2
  | .seq => 3

/-- The code a command completes with when it raises an exception (R110). -/
def Exn.code : Exn → Code
  | .illegalCommand => .ill
  | .sequenceError => .seq
  | .outOfBounds => .oob

/-- The sticky bit an exception sets (R110). -/
def Exn.flag : Exn → Flag
  | .illegalCommand => .ill
  | .sequenceError => .seq
  | .outOfBounds => .oob

end Sys2Proof.Machine
end

