-- ==== Sys2Proof/Machine/Ops.lean ====
section
/-! DEFINITION. The operations every command is made of: the frame store, the registers, the cursor, the two bounds checks (20_memory.md R33, R34), raising an exception (00_scope.md R10), and the wrapper that runs a command (42_frame_and_register_control.md R100, R101). -/

namespace Sys2Proof.Machine

/-! ## The frame store (20_memory.md R31, R32; 10_state.md R18) -/

/-- The byte at an offset, none where the offset holds no byte. -/
def Memory.read (m : Memory) (a : Nat) : Option Byte :=
  match m with
  | [] => none
  | c :: rest => if c.1 = a then some c.2 else Memory.read rest a

/-- Puts a byte at an offset, keeping the offsets strictly rising. -/
def Memory.write (m : Memory) (a : Nat) (b : Byte) : Memory :=
  match m with
  | [] => [(a, b)]
  | c :: rest =>
    if a < c.1 then (a, b) :: c :: rest
    else if a = c.1 then (a, b) :: rest
    else c :: Memory.write rest a b

/-- The canonical form: offsets strictly rising, so that equal memories are equal lists.
No cell equals what an unlisted offset reads as, since that is no byte at all. -/
abbrev Memory.wf (m : Memory) : Prop := List.Pairwise (fun c d : Host.Cell => c.1 < d.1) m

/-- `MemRead(addr, n)` (00_scope.md R8): `FB[addr]`, ..., `FB[addr+n-1]`, none where one of them holds no byte.
"It has no side effect." -/
def Memory.readSpan (m : Memory) (a : Nat) (n : Nat) : Option (List Byte) :=
  match n with
  | 0 => some []
  | k + 1 =>
    match m.read a, Memory.readSpan m (a + 1) k with
    | some b, some bs => some (b :: bs)
    | _, _ => none

/-- `be(s)` (00_scope.md R9): the byte at the lowest offset is the most significant (20_memory.md R35). -/
def be (s : List Byte) : Nat :=
  match s with
  | [] => 0
  | b :: rest => b.toNat * 256 ^ rest.length + be rest

/-! ## Registers (10_state.md R15, R16) -/

/-- `x[i]`. No register is hardwired (R15). -/
def Block.readReg (b : Block) (i : Reg) : Word := b.x[i]

/-- `x[i] <- v`, all 32 bits (R15). -/
def Block.writeReg (b : Block) (i : Reg) (v : Word) : Block := { b with x := b.x.set i v }

/-- `ARR[0..n-1] <- s`, `ARR[n..15] <- 0`, `ALEN <- n` (41_field_readers.md R90). -/
def Block.writeArr (b : Block) (s : List Byte) : Block :=
  { b with arr := Vector.ofFn fun i => s.getD i 0, alen := BitVec.ofNat 5 s.length }

/-! ## The cursor (10_state.md R19) -/

/-- `Consume(n)` (00_scope.md R9): both assignments use the old values.
The registers are 16 bits wide; nothing is lost where `OFF + REM <= FLEN` and `n <= REM` (log entry 6). -/
def Block.consume (b : Block) (n : Nat) : Block :=
  { b with off := b.off + BitVec.ofNat 16 n, rem := b.rem - BitVec.ofNat 16 n }

/-! ## The two bounds checks -/

/-- The window check (20_memory.md R33): `n <= REM` as naturals, else `OutOfBounds` and nothing is read. -/
def Block.checkWindow (b : Block) (n : Nat) (k : Result) : Result :=
  if n ≤ b.rem.toNat then k else .raise .outOfBounds

/-- A read of a span that a bounds check has passed. -/
def Block.withSpan (b : Block) (a n : Nat) (k : List Byte → Result) : Result :=
  match b.fb.readSpan a n with
  | some s => k s
  | none => .stop .frameByteAbsent

/-- Every cursor read (41_field_readers.md R85): the check first, then `MemRead(OFF, n)`, then `Consume(n)`. -/
def Block.readWindow (b : Block) (n : Nat) (deliver : List Byte → Block) : Result :=
  b.checkWindow n (b.withSpan b.off.toNat n fun s => .done ((deliver s).consume n))

/-- The region check (20_memory.md R34): `a + l <= FLEN` on unbounded naturals, else `OutOfBounds`
and nothing is read. -/
def Block.readRegion (b : Block) (a l : Nat) (use : List Byte → Block) : Result :=
  if a + l ≤ b.flen.toNat then b.withSpan a l fun s => .done (use s) else .raise .outOfBounds

/-! ## Completing a command -/

/-- The block returns a value to the host. -/
def State.answer (s : State) (r : HostResult) : State := { s with results := s.results ++ [r] }

/-- `raise E` (00_scope.md R10): the sticky bit of `E` is set, the command completes with the code of `E`,
and nothing else changes. "Its whole effect is the sticky bit and the code" (60_exceptions.md R119):
there is no trap entry, and so no return (R120). -/
def takeException (e : Exn) (s : State) : State :=
  { s with block := s.block.setFlag e.flag }.answer (.completed e.code)

/-- The end of `Execute` (R100): DONE with all the writes, or the exception the rule raised. -/
def finish (s : State) (r : Result) : Host.Outcome State Fault Refusal :=
  match r with
  | .done b => .next ({ s with block := b }.answer (.completed .done))
  | .raise e => .next (takeException e s)
  | .stop f => .fault f

/-- Admission by mode (R101): in IDLE only `NOP`, `OPEN`, `CLOSE`; in ACTIVE every command except `OPEN`. -/
def admitted (op : Op) (active : Bool) : Bool :=
  match op with
  | .nop => true
  | .closeCall => true
  | .openCall => !active
  | .li => active
  | .rdc => active
  | .ext => active
  | .rdu8 => active
  | .rdu16 => active
  | .rdu32 => active
  | .rda => active
  | .skip => active
  | .limit => active
  | .ckclr => active
  | .ckadd => active
  | .ckget => active
  | .ckvfy => active
  | .cksum => active

/-- `Execute` (R100) around the rule of one command: illegal, then sequence, then the rule (60_exceptions.md R117).
An instruction that is not well formed is encoded by no legal word, so it completes as an illegal one (log entry 5). -/
def runCommand (i : Instr) (rule : Block → Result) (s : State) : Host.Outcome State Fault Refusal :=
  if i.wellFormed then
    if admitted i.op s.block.active then finish s (rule s.block)
    else .next (takeException .sequenceError s)
  else .next (takeException .illegalCommand s)

end Sys2Proof.Machine
end

