-- ==== Sys2Proof/Machine/Operands.lean ====
section
/-! DEFINITION. The operand forms of the commands: immediates (30_encoding.md R56), control registers (10_state.md R22), regions (20_memory.md R34) and bit fields (41_field_readers.md R93). -/

namespace Sys2Proof.Machine

/-- `zext_32` of a 16-bit value: "never sign-extended, scaled or shifted" (R56). -/
def zext32 (v : Half) : Word := v.setWidth 32

/-- A control register "zero-extended to 32 bits" (R22). -/
def Block.readCsr (b : Block) (c : Csr) : Word :=
  match c with
  | .status => b.status.setWidth 32
  | .off => zext32 b.off
  | .rem => zext32 b.rem
  | .flen => zext32 b.flen
  | .sum => zext32 b.sum
  | .lane => b.lane.setWidth 32
  | .alen => b.alen.setWidth 32

/-- The start of a region, the full 32-bit value of a register as a natural (R32, R34). -/
def Block.regionStart (b : Block) (rs1 : Reg) : Nat := (b.readReg rs1).toNat

/-- The length of a region, the full 32-bit value of a register as a natural (R32, R34). -/
def Block.regionLength (b : Block) (rs2 : Reg) : Nat := (b.readReg rs2).toNat

/-- `lowmask(w) = 2^w - 1` (00_scope.md R9). -/
def lowmask (w : Nat) : Word := BitVec.ofNat 32 (2 ^ w - 1)

/-- A bit field: "shift right by lsb, mask with lowmask(width)" (R93). The shift is logical. -/
def bitField (v : Word) (lsb width : Nat) : Word := (v >>> lsb) &&& lowmask width

/-- The integer of a field read, `be` of its bytes zero-extended to 32 bits (20_memory.md R35, R38). -/
def fieldValue (s : List Byte) : Word := BitVec.ofNat 32 (be s)

end Sys2Proof.Machine
end

