-- ==== Sys2Proof/Machine/Checksum.lean ====
section
/-! DEFINITION. The checksum engine: its arithmetic (00_scope.md R9, 40_checksum_engine.md R69, R70) and CKCLR, CKADD, CKGET, CKVFY, CKSUM (R78 to R82). -/

namespace Sys2Proof.Machine

/-- `oc_add16(a, b)` (R9): the sum of two 16-bit values with end-around carry. -/
def ocAdd16 (a b : Half) : Half :=
  BitVec.ofNat 16 ((a.toNat + b.toNat) % 65536 + (a.toNat + b.toNat) / 65536)

/-- The accumulator, `SUM` and `LANE` (10_state.md R17). -/
abbrev Accumulator := Half × BitVec 1

/-- The word a byte adds: in lane 0 it is the high byte of a word, in lane 1 the low byte (R70). -/
def laneWord (lane : BitVec 1) (b : Byte) : Half :=
  if lane = 0 then BitVec.ofNat 16 (256 * b.toNat) else BitVec.ofNat 16 b.toNat

/-- `ck_step((S, L), b)` (R70). -/
def ckStep (acc : Accumulator) (b : Byte) : Accumulator :=
  (ocAdd16 acc.1 (laneWord acc.2 b), 1 - acc.2)

/-- `ck_feed((S, L), s)` (R70). "Nothing is done at the end of a sequence". -/
def ckFeed (acc : Accumulator) (s : List Byte) : Accumulator := s.foldl ckStep acc

/-- The words of R69: big-endian pairs from the first byte, an odd trailing byte the high byte of a word
whose low byte is 0. -/
def checksumWords (s : List Byte) : List Half :=
  match s with
  | [] => []
  | [b] => [BitVec.ofNat 16 (256 * b.toNat)]
  | b :: c :: rest => BitVec.ofNat 16 (256 * b.toNat + c.toNat) :: checksumWords rest

/-- `CK(s)`, the Internet checksum as the document defines it (R69): the one's complement of the
one's-complement sum of the words. No command computes it this way. -/
def internetChecksum (s : List Byte) : Half :=
  BitVec.ofNat 16 (65535 - ((checksumWords s).foldl ocAdd16 0).toNat)

/-- The accumulator of a block. -/
def Block.accumulator (b : Block) : Accumulator := (b.sum, b.lane)

/-- A new content of `SUM` and `LANE`. -/
def Block.setAccumulator (b : Block) (acc : Accumulator) : Block := { b with sum := acc.1, lane := acc.2 }

/-- `65535 - SUM`, "the one's complement of the 16-bit sum", zero-extended to 32 bits (R80). -/
def checksumOf (sum : Half) : Word := BitVec.ofNat 32 (65535 - sum.toNat)

/-- `CKCLR` (R78): `SUM <- 0 ; LANE <- 0`. -/
def execCkclr (s : State) : Host.Outcome State Fault Refusal :=
  runCommand .ckclr (fun b => .done (b.setAccumulator (0, 0))) s

/-- `CKADD rs1, rs2` (R79): the region is fed whole or not at all; `LANE` carries over (R73). -/
def execCkadd (rs1 rs2 : Reg) (s : State) : Host.Outcome State Fault Refusal :=
  runCommand (.ckadd rs1 rs2)
    (fun b => b.readRegion (b.regionStart rs1) (b.regionLength rs2)
      fun bytes => b.setAccumulator (ckFeed b.accumulator bytes)) s

/-- `CKGET rd` (R80): `x[rd] <- zext_32(65535 - SUM)`. -/
def execCkget (rd : Reg) (s : State) : Host.Outcome State Fault Refusal :=
  runCommand (.ckget rd) (fun b => .done (b.writeReg rd (checksumOf b.sum))) s

/-- `CKVFY rd` (R82): 1 if `SUM = 0xFFFF`, else 0. No STATUS bit is touched. -/
def execCkvfy (rd : Reg) (s : State) : Host.Outcome State Fault Refusal :=
  runCommand (.ckvfy rd) (fun b => .done (b.writeReg rd (if b.sum = 0xFFFF then 1 else 0))) s

/-- `CKSUM rd, rs1, rs2` (R81): the checksum of a region from a clear accumulator, which is left holding the
region's sum; on `OutOfBounds` nothing changes, the accumulator included. -/
def execCksum (rd rs1 rs2 : Reg) (s : State) : Host.Outcome State Fault Refusal :=
  runCommand (.cksum rd rs1 rs2)
    (fun b => b.readRegion (b.regionStart rs1) (b.regionLength rs2) fun bytes =>
      (b.setAccumulator (ckFeed (0, 0) bytes)).writeReg rd (checksumOf (ckFeed (0, 0) bytes).1)) s

end Sys2Proof.Machine
end

