-- ==== Sys2Proof/Machine/FieldReaders.lean ====
section
/-! DEFINITION. The field readers RDU8, RDU16, RDU32, RDA and the cursor commands SKIP, LIMIT (41_field_readers.md R85 to R92). -/

namespace Sys2Proof.Machine

/-- A field of `n` bytes at the cursor into `x[rd]` (R85). -/
def Block.readField (b : Block) (n : Nat) (rd : Reg) : Result :=
  b.readWindow n fun s => b.writeReg rd (fieldValue s)

/-- `RDU8 rd` (R87). -/
def execRdu8 (rd : Reg) (s : State) : Host.Outcome State Fault Refusal :=
  runCommand (.rdu8 rd) (fun b => b.readField 1 rd) s

/-- `RDU16 rd` (R88). -/
def execRdu16 (rd : Reg) (s : State) : Host.Outcome State Fault Refusal :=
  runCommand (.rdu16 rd) (fun b => b.readField 2 rd) s

/-- `RDU32 rd` (R89). -/
def execRdu32 (rd : Reg) (s : State) : Host.Outcome State Fault Refusal :=
  runCommand (.rdu32 rd) (fun b => b.readField 4 rd) s

/-- `RDA n` (R90): the `n` bytes in frame order into `ARR`, the tail zeroed, `ALEN <- n`. -/
def execRda (n : Half) (s : State) : Host.Outcome State Fault Refusal :=
  runCommand (.rda n) (fun b => b.readWindow n.toNat fun bytes => b.writeArr bytes) s

/-- `SKIP n` (R91): "no byte is read; nothing is delivered". -/
def execSkip (n : Half) (s : State) : Host.Outcome State Fault Refusal :=
  runCommand (.skip n) (fun b => b.checkWindow n.toNat (.done (b.consume n.toNat))) s

/-- `LIMIT n` (R92): `REM <- n`, `OFF` unchanged, where `n <= REM`. -/
def execLimit (n : Half) (s : State) : Host.Outcome State Fault Refusal :=
  runCommand (.limit n) (fun b => b.checkWindow n.toNat (.done { b with rem := n })) s

end Sys2Proof.Machine
end

