-- ==== Sys2Proof/Machine/FrameControl.lean ====
section
/-! DEFINITION. The frame control commands NOP, OPEN, CLOSE (42_frame_and_register_control.md R102 to R104). -/

namespace Sys2Proof.Machine

/-- `NOP` (R102): "returns DONE and the state is unchanged". -/
def execNop (s : State) : Host.Outcome State Fault Refusal :=
  runCommand .nop (fun b => .done b) s

/-- `OPEN` (R103): `OFF <- 0 ; REM <- FLEN ; STATUS.ACT <- 1`. -/
def execOpenCall (s : State) : Host.Outcome State Fault Refusal :=
  runCommand .openCall (fun b => .done ({ b with off := 0, rem := b.flen }.setFlag .act)) s

/-- `CLOSE` (R104): "every piece of state <- its value in 10_state.md rule R25". -/
def execCloseCall (s : State) : Host.Outcome State Fault Refusal :=
  runCommand .closeCall (fun _ => .done Block.reset) s

end Sys2Proof.Machine
end

