-- ==== Sys2Proof/Machine/RegisterControl.lean ====
section
/-! DEFINITION. The register commands LI, RDC (42_frame_and_register_control.md R105, R106) and EXT (41_field_readers.md R93). -/

namespace Sys2Proof.Machine

/-- `LI rd, imm16` (R105): `x[rd] <- zext_32(imm16)`. -/
def execLi (rd : Reg) (imm16 : Half) (s : State) : Host.Outcome State Fault Refusal :=
  runCommand (.li rd imm16) (fun b => .done (b.writeReg rd (zext32 imm16))) s

/-- `RDC rd, csr` (R106): `x[rd] <- zext_32(CSR[csr])`. -/
def execRdc (rd : Reg) (csr : Csr) (s : State) : Host.Outcome State Fault Refusal :=
  runCommand (.rdc rd csr) (fun b => .done (b.writeReg rd (b.readCsr csr))) s

/-- `EXT rd, rs1, lsb, width` (R93): `x[rd] <- (x[rs1] div 2^lsb) mod 2^width`, the source read first. -/
def execExt (rd rs1 : Reg) (lsb : BitVec 5) (width : BitVec 6) (s : State) : Host.Outcome State Fault Refusal :=
  runCommand (.ext rd rs1 lsb width)
    (fun b => .done (b.writeReg rd (bitField (b.readReg rs1) lsb.toNat width.toNat))) s

end Sys2Proof.Machine
end

