-- ==== Sys2Proof/Machine/Dispatch.lean ====
section
/-! DEFINITION. One arm per constructor of Instr, each a direct call of its meaning. -/

namespace Sys2Proof.Machine

def exec (i : Instr) (s : State) : Host.Outcome State Fault Refusal :=
  match i with
  | .nop => Sys2Proof.Machine.execNop s
  | .openCall => Sys2Proof.Machine.execOpenCall s
  | .closeCall => Sys2Proof.Machine.execCloseCall s
  | .li rd imm16 => Sys2Proof.Machine.execLi rd imm16 s
  | .rdc rd csr => Sys2Proof.Machine.execRdc rd csr s
  | .ext rd rs1 lsb width => Sys2Proof.Machine.execExt rd rs1 lsb width s
  | .rdu8 rd => Sys2Proof.Machine.execRdu8 rd s
  | .rdu16 rd => Sys2Proof.Machine.execRdu16 rd s
  | .rdu32 rd => Sys2Proof.Machine.execRdu32 rd s
  | .rda n => Sys2Proof.Machine.execRda n s
  | .skip n => Sys2Proof.Machine.execSkip n s
  | .limit n => Sys2Proof.Machine.execLimit n s
  | .ckclr => Sys2Proof.Machine.execCkclr s
  | .ckadd rs1 rs2 => Sys2Proof.Machine.execCkadd rs1 rs2 s
  | .ckget rd => Sys2Proof.Machine.execCkget rd s
  | .ckvfy rd => Sys2Proof.Machine.execCkvfy rd s
  | .cksum rd rs1 rs2 => Sys2Proof.Machine.execCksum rd rs1 rs2 s

end Sys2Proof.Machine
end

