-- ==== Sys2Proof/Machine/HostPort.lean ====
section
/-! DEFINITION. The four host actions (20_memory.md R42 to R46), the next of them to be done, and the view a call leaves the host (R52). -/

namespace Sys2Proof.Machine

/-- HostPush(`b`) (R43): appended in IDLE while there is room, else refused with `WRERR` set. -/
def hostPush (b : Byte) (s : State) : State :=
  if !s.block.active && s.block.flen.toNat < s.frameCap then
    { s with block := { s.block with
        fb := s.block.fb.write s.block.flen.toNat b
        flen := s.block.flen + 1 } }.answer .accepted
  else { s with block := s.block.setFlag .wrerr }.answer .refused

/-- HostCommand(`w`) (R44) is `Execute(w)` (42_frame_and_register_control.md R100):
an illegal word sets `ILL` and nothing else, in either mode. -/
def hostCommand (w : Word) (s : State) : Host.Outcome State Fault Refusal :=
  match decode w with
  | .ok i => exec i s
  | .error _ => .next (takeException .illegalCommand s)

/-- The current value of what HostRead names (R45). -/
def Block.readTarget (b : Block) (t : Target) : HostResult :=
  match t with
  | .reg i => .word (b.readReg i)
  | .arr i => .byte b.arr[i]
  | .csr c => .word (b.readCsr c)

/-- HostRead(`t`) (R45): "It changes no state". -/
def hostRead (t : Target) (s : State) : State := s.answer (s.block.readTarget t)

/-- HostReset (R46, 70_reset_and_hazards.md R127): every piece of the block's state as R25 has it.
The parameter and what the host holds are no state of the block (R27). -/
def hostReset (s : State) : State := { s with block := Block.reset }

/-- One host action, an atomic step (R42). -/
def perform (a : HostAction) (s : State) : Host.Outcome State Fault Refusal :=
  match a with
  | .push b => .next (hostPush b s)
  | .command w => hostCommand w s
  | .read t => .next (hostRead t s)
  | .reset => .next (hostReset s)

/-- The host's next action, taken off its stream. -/
def State.nextAction (s : State) : Option (HostAction × State) :=
  match s.pending with
  | [] => none
  | a :: rest => some (a, { s with pending := rest })

/-- The view (`OFF`, `REM`) of the bytes not yet read, a pair (start, length) of frame offsets (R52). -/
def Block.view (b : Block) : Nat × Nat := (b.off.toNat, b.rem.toNat)

end Sys2Proof.Machine
end

