-- ==== Sys2Proof/Machine/Step.lean ====
section
/-! DEFINITION. One step: the host's next action, performed whole (20_memory.md R42, 70_reset_and_hazards.md R134). -/

namespace Sys2Proof.Machine

/-- One step is one host action. With no action given the state does not change (R42). -/
def step (s : State) : Host.Outcome State Fault Refusal :=
  match s.nextAction with
  | some (a, s') => perform a s'
  | none => .next s

/-- `s` with the command of an opcode-table word as the host's next action, so that the next step runs it. -/
def State.withFetchWord (s : State) (nbits w : Nat) : State :=
  { s with pending := .command (tableWord nbits w) :: s.pending }

end Sys2Proof.Machine
end

