-- ==== Sys2Proof/Machine/Assembler.lean ====
section
/-! DEFINITION. The textual form of commands and host actions (30_encoding.md R63, R64; 42_frame_and_register_control.md R108): one line of text to the host actions it stands for. No step uses it. -/

namespace Sys2Proof.Machine

/-! ## Text -/

/-- The pieces of a text between the characters that satisfy `p`. -/
def splitBy (p : Char → Bool) (l : List Char) : List (List Char) :=
  match l with
  | [] => [[]]
  | c :: cs =>
    if p c then [] :: splitBy p cs
    else
      match splitBy p cs with
      | [] => [[c]]
      | t :: ts => (c :: t) :: ts

/-- The words of a text, set apart by spaces and tabs (log entry 12). -/
def textWords (l : List Char) : List (List Char) :=
  (splitBy (fun c => c == ' ' || c == '\t') l).filter fun t => !t.isEmpty

/-- One operand: exactly one word. -/
def oneWord (l : List Char) : Option (List Char) :=
  match textWords l with
  | [t] => some t
  | _ => none

/-- The operands of a line, "separated by commas" (R63). -/
def operandTexts (l : List Char) : Option (List (List Char)) :=
  if (textWords l).isEmpty then some [] else (splitBy (· == ',') l).mapM oneWord

/-- A digit of base 16. -/
def hexDigit (c : Char) : Option Nat :=
  if '0' ≤ c ∧ c ≤ '9' then some (c.toNat - '0'.toNat)
  else if 'a' ≤ c ∧ c ≤ 'f' then some (c.toNat - 'a'.toNat + 10)
  else if 'A' ≤ c ∧ c ≤ 'F' then some (c.toNat - 'A'.toNat + 10)
  else none

/-- The number of a sequence of digits of a base, none where it is empty or a digit is too large. -/
def digitsNumber (base : Nat) (l : List Char) : Option Nat :=
  match l with
  | [] => none
  | _ =>
    l.foldl (fun acc c =>
      match acc, hexDigit c with
      | some n, some d => if d < base then some (n * base + d) else none
      | _, _ => none) (some 0)

/-- "A number is decimal, or hexadecimal with 0x" (R63). -/
def textNumber (l : List Char) : Option Nat :=
  match l with
  | '0' :: 'x' :: ds => digitsNumber 16 ds
  | ds => digitsNumber 10 ds

/-- "A general register is x0 .. x15" (R63). -/
def textReg (l : List Char) : Option Reg :=
  match l with
  | 'x' :: '1' :: d :: [] =>
    match digitsNumber 10 [d] with
    | some n => if h : 10 + n < 16 then some ⟨10 + n, h⟩ else none
    | none => none
  | 'x' :: d :: [] =>
    match digitsNumber 10 [d] with
    | some n => if h : n < 16 then some ⟨n, h⟩ else none
    | none => none
  | _ => none

/-- The name of a control register (10_state.md R22). -/
def Csr.name : Csr → List Char
  | .status => ['S', 'T', 'A', 'T', 'U', 'S']
  | .off => ['O', 'F', 'F']
  | .rem => ['R', 'E', 'M']
  | .flen => ['F', 'L', 'E', 'N']
  | .sum => ['S', 'U', 'M']
  | .lane => ['L', 'A', 'N', 'E']
  | .alen => ['A', 'L', 'E', 'N']

/-- A control register by its name. -/
def textCsrName (l : List Char) : Option Csr := Csr.all.find? fun c => Csr.name c == l

/-- "csr is a number 0..6 or one of the names" (R63). -/
def textCsr (l : List Char) : Option Csr :=
  match textCsrName l with
  | some c => some c
  | none =>
    match textNumber l with
    | some n => if n < 65536 then Csr.ofNumber? (BitVec.ofNat 16 n) else none
    | none => none

/-- An unsigned number that fits `w` bits. -/
def textBits (w : Nat) (l : List Char) : Option (BitVec w) :=
  match textNumber l with
  | some n => if n < 2 ^ w then some (BitVec.ofNat w n) else none
  | none => none

/-! ## Commands -/

/-- The mnemonic of a row (R57). -/
def mnemonicText : Op → List Char
  | .nop => ['N', 'O', 'P']
  | .openCall => ['O', 'P', 'E', 'N']
  | .closeCall => ['C', 'L', 'O', 'S', 'E']
  | .li => ['L', 'I']
  | .rdc => ['R', 'D', 'C']
  | .ext => ['E', 'X', 'T']
  | .rdu8 => ['R', 'D', 'U', '8']
  | .rdu16 => ['R', 'D', 'U', '1', '6']
  | .rdu32 => ['R', 'D', 'U', '3', '2']
  | .rda => ['R', 'D', 'A']
  | .skip => ['S', 'K', 'I', 'P']
  | .limit => ['L', 'I', 'M', 'I', 'T']
  | .ckclr => ['C', 'K', 'C', 'L', 'R']
  | .ckadd => ['C', 'K', 'A', 'D', 'D']
  | .ckget => ['C', 'K', 'G', 'E', 'T']
  | .ckvfy => ['C', 'K', 'V', 'F', 'Y']
  | .cksum => ['C', 'K', 'S', 'U', 'M']

/-- A command of format D, its one operand `rd` (R63). -/
def assembleD (make : Reg → Instr) (args : List (List Char)) : Option Instr :=
  match args with
  | [rd] => (textReg rd).map make
  | _ => none

/-- A command of format U, its one operand `imm16` (R63). -/
def assembleU (make : Half → Instr) (args : List (List Char)) : Option Instr :=
  match args with
  | [n] => (textBits 16 n).map make
  | _ => none

/-- A command of format N, no operand (R63). -/
def assembleN (i : Instr) (args : List (List Char)) : Option Instr :=
  match args with
  | [] => some i
  | _ => none

/-- Operands "in the order destination, sources, immediates" (R63). -/
def assembleOperands (op : Op) (args : List (List Char)) : Option Instr :=
  match op with
  | .nop => assembleN .nop args
  | .openCall => assembleN .openCall args
  | .closeCall => assembleN .closeCall args
  | .li =>
    match args with
    | [rd, imm] => do pure (.li (← textReg rd) (← textBits 16 imm))
    | _ => none
  | .rdc =>
    match args with
    | [rd, csr] => do pure (.rdc (← textReg rd) (← textCsr csr))
    | _ => none
  | .ext =>
    match args with
    | [rd, rs1, lsb, width] => do
      pure (.ext (← textReg rd) (← textReg rs1) (← textBits 5 lsb) (← textBits 6 width))
    | _ => none
  | .rdu8 => assembleD .rdu8 args
  | .rdu16 => assembleD .rdu16 args
  | .rdu32 => assembleD .rdu32 args
  | .rda => assembleU .rda args
  | .skip => assembleU .skip args
  | .limit => assembleU .limit args
  | .ckclr => assembleN .ckclr args
  | .ckadd =>
    match args with
    | [rs1, rs2] => do pure (.ckadd (← textReg rs1) (← textReg rs2))
    | _ => none
  | .ckget => assembleD .ckget args
  | .ckvfy => assembleD .ckvfy args
  | .cksum =>
    match args with
    | [rd, rs1, rs2] => do pure (.cksum (← textReg rd) (← textReg rs1) (← textReg rs2))
    | _ => none

/-- The pseudo-instructions (R64). -/
def assemblePseudo (m : List Char) (args : List (List Char)) : Option Instr :=
  if m = ['R', 'D', 'M', 'A', 'C'] then assembleN .rdmac args
  else if m = ['R', 'D', 'I', 'P', '4'] then assembleN .rdip4 args
  else if m = ['R', 'D', 'I', 'P', '6'] then assembleN .rdip6 args
  else if m = ['E', 'X', 'T', 'B'] then
    match args with
    | [rd, rs1, bit] => do pure (.extb (← textReg rd) (← textReg rs1) (← textBits 5 bit))
    | _ => none
  else none

/-- A command from its mnemonic, "case-insensitive" (R63), and its operands; none where no word encodes it. -/
def assembleCommand (m : List Char) (args : List (List Char)) : Option Instr :=
  let upper := m.map Char.toUpper
  let found :=
    match Op.all.find? fun op => mnemonicText op == upper with
    | some op => assembleOperands op args
    | none => assemblePseudo upper args
  found.filter Instr.wellFormed

/-! ## Lines -/

/-- A two-digit hexadecimal byte (00_scope.md R7). -/
def textByte (l : List Char) : Option Byte :=
  match l with
  | [h, t] => (digitsNumber 16 [h, t]).map (BitVec.ofNat 8)
  | _ => none

/-- What HostRead names, as 20_memory.md R45 writes it: `x3`, `FLEN`, `ARR[3]` (log entry 12). -/
def textTarget (l : List Char) : Option Target :=
  match l with
  | 'A' :: 'R' :: 'R' :: '[' :: rest =>
    match splitBy (· == ']') rest with
    | [i, []] =>
      match digitsNumber 10 i with
      | some n => if h : n < 16 then some (.arr ⟨n, h⟩) else none
      | none => none
    | _ => none
  | _ =>
    match textReg l with
    | some r => some (.reg r)
    | none => (textCsrName l).map .csr

/-- One line: "One command per line; a ; starts a comment"; "A host action that is not a command is written
... as a line beginning with ." (R63). An empty line stands for no action; `.word` gives a raw word (95_test_vectors.md P4). -/
def assembleLine (line : List Char) : Option (List HostAction) :=
  let body := line.takeWhile (· != ';')
  match textWords body with
  | [] => some []
  | m :: args =>
    if m = ['.', 'p', 'u', 's', 'h'] then args.mapM fun a => (textByte a).map .push
    else if m = ['.', 'r', 'e', 's', 'e', 't'] then
      if args.isEmpty then some [.reset] else none
    else if m = ['.', 'r', 'e', 'a', 'd'] then
      match args with
      | [t] => (textTarget t).map fun t => [.read t]
      | _ => none
    else if m = ['.', 'w', 'o', 'r', 'd'] then
      match args with
      | [w] => (textBits 32 w).map fun w => [.command w]
      | _ => none
    else do
      let operandText := (body.dropWhile fun c => c == ' ' || c == '\t').drop m.length
      let i ← assembleCommand m (← operandTexts operandText)
      pure [.command (encode i)]

/-- A command program, "a finite list of host actions" (R108), from its lines. -/
def assembleProgram (text : List Char) : Option (List HostAction) :=
  ((splitBy (· == '\n') text).mapM assembleLine).map List.flatten

end Sys2Proof.Machine
end

