-- ==== Sys2Proof/Safety.lean ====
section
/-! DEFINITION. The terms claims are written in: the invariants of 10_state.md R24, the form of a state after a command, what a command may write (R23), and the arithmetic of 40_checksum_engine.md R71. No step uses any of it. -/

namespace Sys2Proof.Machine

/-! ## Invariants (10_state.md R24) -/

/-- The frame store holds exactly the offsets 0 .. FLEN-1 (10_state.md R18). -/
def Block.FrameOk (b : Block) : Prop := b.fb.map Prod.fst = List.range b.flen.toNat

/-- (I2) What is 0 while the block is IDLE. -/
structure Block.CallStateClear (b : Block) : Prop where
  off : b.off = 0
  rem : b.rem = 0
  x : ∀ i : Reg, b.x[i] = 0
  arr : ∀ i : Fin 16, b.arr[i] = 0
  alen : b.alen = 0
  sum : b.sum = 0
  lane : b.lane = 0
  oob : b.status.getLsbD 0 = false

/-- What holds of a block in every state reachable from reset (R24), with `FRAME_CAP` = `cap`. -/
structure Block.Inv (b : Block) (cap : Nat) : Prop where
  /-- (I1), the cursor stays in the frame. -/
  window : b.off.toNat + b.rem.toNat ≤ b.flen.toNat
  /-- (I1), the frame stays in the store. -/
  capacity : b.flen.toNat ≤ cap
  /-- R18, the frame store holds the bytes of the frame and no others. -/
  frame : b.FrameOk
  /-- (I2). -/
  idle : b.status.getLsbD 7 = false → b.CallStateClear
  /-- (I3). -/
  alen : b.alen.toNat ≤ 16
  /-- (I3). -/
  arrTail : ∀ i : Fin 16, b.alen.toNat ≤ i.val → b.arr[i] = 0
  /-- (I5). -/
  reserved : ∀ k : Fin 3, b.status.getLsbD (4 + k.val) = false

/-- The invariant of a state: its block's, and `FRAME_CAP` a legal value (R6). -/
structure Inv (s : State) : Prop where
  block : s.block.Inv s.frameCap
  frameCap : Config.ValidFrameCap s.frameCap

/-! ## The state after a command -/

/-- The state after a command that completes with DONE and leaves the block as `b`, the code in `results` (log entry 3). -/
def State.doneWith (s : State) (b : Block) : State :=
  { s with block := b, results := s.results ++ [.completed .done] }

/-- The state after a command that sets one bit of STATUS, returns a code in `results` (log entry 3) and does nothing else. -/
def State.onlySets (s : State) (bit : Nat) (c : Code) : State :=
  { s with
    block := { s.block with status := s.block.status ||| (1#8 <<< bit) }
    results := s.results ++ [.completed c] }

/-- A word that is no command (30_encoding.md R58). -/
def IsIllegal (w : Word) : Prop := ∀ i : Instr, decode w ≠ .ok i

/-- The frame bytes at `a`, `a+1`, ... are those of a list. -/
def Block.HoldsAt (b : Block) (a : Nat) (s : List Byte) : Prop :=
  ∀ k, (h : k < s.length) → b.fb.read (a + k) = some s[k]

/-- The host action the next step performs is a reset or a `CLOSE`. -/
def State.EndsCall (s : State) : Prop :=
  s.pending.head? = some .reset ∨ ∃ w, s.pending.head? = some (.command w) ∧ decode w = .ok .closeCall

/-! ## What a command may write (10_state.md R23) -/

/-- The general register a command writes on success; `CLOSE` writes them all. -/
def destReg : Instr → Option Reg
  | .li rd _ => some rd
  | .rdc rd _ => some rd
  | .ext rd _ _ _ => some rd
  | .rdu8 rd => some rd
  | .rdu16 rd => some rd
  | .rdu32 rd => some rd
  | .ckget rd => some rd
  | .ckvfy rd => some rd
  | .cksum rd _ _ => some rd
  | .nop => none
  | .openCall => none
  | .closeCall => none
  | .rda _ => none
  | .skip _ => none
  | .limit _ => none
  | .ckclr => none
  | .ckadd _ _ => none

/-- The bytes a command must find in the cursor's window (20_memory.md R33, 41_field_readers.md R92). -/
def windowNeed : Instr → Option Nat
  | .rdu8 _ => some 1
  | .rdu16 _ => some 2
  | .rdu32 _ => some 4
  | .rda n => some n.toNat
  | .skip n => some n.toNat
  | .limit n => some n.toNat
  | .nop => none
  | .openCall => none
  | .closeCall => none
  | .li _ _ => none
  | .rdc _ _ => none
  | .ext _ _ _ _ => none
  | .ckclr => none
  | .ckadd _ _ => none
  | .ckget _ => none
  | .ckvfy _ => none
  | .cksum _ _ _ => none

/-- The registers that name a command's region, start and length (20_memory.md R34). -/
def regionRegs : Instr → Option (Reg × Reg)
  | .ckadd rs1 rs2 => some (rs1, rs2)
  | .cksum _ rs1 rs2 => some (rs1, rs2)
  | .nop => none
  | .openCall => none
  | .closeCall => none
  | .li _ _ => none
  | .rdc _ _ => none
  | .ext _ _ _ _ => none
  | .rdu8 _ => none
  | .rdu16 _ => none
  | .rdu32 _ => none
  | .rda _ => none
  | .skip _ => none
  | .limit _ => none
  | .ckclr => none
  | .ckget _ => none
  | .ckvfy _ => none

/-- A bounds check of the command fails: the window check (R33) or the region check (R34), on naturals. -/
def OutOfBoundsIn (i : Instr) (b : Block) : Prop :=
  (∃ n, windowNeed i = some n ∧ b.rem.toNat < n) ∨
  (∃ rs1 rs2, regionRegs i = some (rs1, rs2) ∧ b.flen.toNat < b.x[rs1].toNat + b.x[rs2].toNat)

/-! ## The checksum in closed form (40_checksum_engine.md R71) -/

/-- `T(s)`, "the sum over i of s[i] * (256 if i is even else 1)", an unbounded natural. -/
def byteTotal (s : List Byte) : Nat :=
  match s with
  | [] => 0
  | [b] => 256 * b.toNat
  | b :: c :: rest => 256 * b.toNat + c.toNat + byteTotal rest

/-- `red(T)`, 0 for 0, else "the value in 1..65535 congruent to T mod 65535". -/
def reduced (t : Nat) : Nat := if t = 0 then 0 else (t - 1) % 65535 + 1

/-! ## Bits on the wire (20_memory.md R36) -/

/-- The bits of a byte, most significant first. -/
def byteBits (b : Byte) : List Bool := (List.range 8).map fun k => b.getLsbD (7 - k)

/-- The bits of a byte sequence in the order they stand on the wire: first byte first, most significant bit first. -/
def wireBits (s : List Byte) : List Bool := s.flatMap byteBits

/-- The number whose bits, most significant first, are given. -/
def bitsNumber (l : List Bool) : Nat := l.foldl (fun n b => 2 * n + b.toNat) 0

end Sys2Proof.Machine
end

