-- ==== Sys2Proof/Certificates/Slice0/Obligations.lean ====
section
/-! DEFINITION. The statements about the model, each a numbered rule of spec/ or a consequence of several.
Wherever one names `pending` or `results`, that is the model's form of the host's stream and of what the block
returns to it (log entries 2 and 3), not state of the block. -/

open Sys2Proof Sys2Proof.Machine

/-! ## Encoding (30_encoding.md) -/

/-- R58, D9: every well-formed instruction is read back from its word, all its operands with it. -/
def Obligations.DecodeOfEncode : Prop :=
  ∀ i : Instr, i.wellFormed = true → decode (encode i) = .ok i

/-- R58, R59: a word that decodes is the word of a well-formed instruction, so decode is injective on legal words. -/
def Obligations.EncodeOfDecode : Prop :=
  ∀ (w : Word) (i : Instr), decode w = .ok i → i.wellFormed = true ∧ encode i = w

/-- Words worked field by field in 30_encoding.md section 7 decode to the commands named there, and the illegal words
listed there to none. -/
def Obligations.WorkedWordsDecode : Prop :=
  decode 0x02000000 = .ok .closeCall ∧
  decode 0x10F0FFFF = .ok (.li 15 65535) ∧
  decode 0x11700006 = .ok (.rdc 7 .alen) ∧
  decode 0x12211C04 = .ok (.ext 2 1 28 4) ∧
  decode 0x22A00000 = .ok (.rdu32 10) ∧
  decode 0x23000010 = .ok (.rda 16) ∧
  decode 0x25000014 = .ok (.limit 20) ∧
  decode 0x31012000 = .ok (.ckadd 1 2) ∧
  decode 0x34512000 = .ok (.cksum 5 1 2) ∧
  IsIllegal 0xFFFFFFFF ∧ IsIllegal 0x01000001 ∧ IsIllegal 0x12211D04 ∧ IsIllegal 0x31112000

/-- R60: every word whose op is reserved is illegal and executes as R100 says in any state;
`NOP` has the one encoding 0. -/
def Obligations.ReservedOpcodesAreIllegal : Prop :=
  (∀ w : Word,
    (let op := w.toNat / 2 ^ 24
     (0x03 ≤ op ∧ op ≤ 0x0F) ∨ (0x13 ≤ op ∧ op ≤ 0x1F) ∨ (0x26 ≤ op ∧ op ≤ 0x2F) ∨ 0x35 ≤ op) →
    IsIllegal w ∧
    ∀ (s : State) (rest : List HostAction), s.pending = .command w :: rest →
      step s = .next ({ s with pending := rest }.onlySets 1 .ill)) ∧
  ∀ w : Word, decode w = .ok .nop ↔ w = 0

/-- R59: a 1 in any bit the row's mask fixes to 0 makes the word illegal. -/
def Obligations.StrayBitsAreIllegal : Prop :=
  (∀ (w : Word) (op : Op) (k : Nat), w.toNat / 2 ^ 24 = op.code.toNat → k < 24 →
    op.format.mask.getLsbD k = true → w.getLsbD k = true → IsIllegal w) ∧
  IsIllegal 0x20310000

/-- R61: the operand values that make a word illegal, and that no others do. -/
def Obligations.OperandLimits : Prop :=
  (∀ n : Nat, n < 65536 → (IsIllegal (BitVec.ofNat 32 (0x23000000 + n)) ↔ n = 0 ∨ n > 16)) ∧
  (∀ (rd : Reg) (n : Nat), n < 65536 →
    (IsIllegal (BitVec.ofNat 32 (0x11000000 + rd.val * 2 ^ 20 + n)) ↔ n > 6)) ∧
  (∀ (rd rs1 : Reg) (lsb width : Nat), lsb < 32 → width < 64 →
    (IsIllegal (BitVec.ofNat 32 (0x12000000 + rd.val * 2 ^ 20 + rs1.val * 2 ^ 16 + lsb * 2 ^ 8 + width)) ↔
      width = 0 ∨ width > 32 ∨ lsb + width > 32)) ∧
  decode 0x24000000 = .ok (.skip 0) ∧ decode 0x25000000 = .ok (.limit 0) ∧
  ∀ i : Instr, i.wellFormed = true → ¬ IsIllegal (encode i)

/-- R64: the words of the pseudo-instructions, and the text of each standing for them. -/
def Obligations.PseudoInstructionWords : Prop :=
  encode .rdmac = 0x23000006 ∧ encode .rdip4 = 0x23000004 ∧ encode .rdip6 = 0x23000010 ∧
  assembleLine ['R', 'D', 'M', 'A', 'C'] = some [.command 0x23000006] ∧
  assembleLine ['R', 'D', 'I', 'P', '4'] = some [.command 0x23000004] ∧
  assembleLine ['R', 'D', 'I', 'P', '6'] = some [.command 0x23000010] ∧
  assembleLine ['E', 'X', 'T', 'B', ' ', 'x', '3', ',', ' ', 'x', '2', ',', ' ', '1', '5'] = some [.command 0x12320F01] ∧
  ∀ (rd rs1 : Reg) (bit : BitVec 5),
    (encode (.extb rd rs1 bit)).toNat = 0x12000001 + rd.val * 2 ^ 20 + rs1.val * 2 ^ 16 + bit.toNat * 2 ^ 8

/-! ## The step and the host actions (20_memory.md) -/

/-- R44, R100: a step whose next host action is a word of an instruction runs exactly that instruction,
with that action taken off the stream (log entry 2). -/
def Obligations.StepRunsDecodedCommand : Prop :=
  ∀ (s : State) (w : Word) (rest : List HostAction) (i : Instr),
    s.pending = .command w :: rest → decode w = .ok i → step s = exec i { s with pending := rest }

/-- R42: with no host action given, nothing changes. That `step` then answers at all is the model's choice (log entry 2). -/
def Obligations.NoActionChangesNothing : Prop :=
  ∀ s : State, s.pending = [] → step s = .next s

/-- R43, R114: HostPush appends one byte in IDLE while there is room, and in every other case sets `WRERR`
and drops the byte. -/
def Obligations.HostPushAppendsOrRefuses : Prop :=
  ∀ (s : State) (b : Byte) (rest : List HostAction), s.pending = .push b :: rest → Config.ValidFrameCap s.frameCap →
    (s.block.status.getLsbD 7 = false ∧ s.block.flen.toNat < s.frameCap →
      ∃ fb : Memory,
        step s = .next { s with
          block := { s.block with fb := fb, flen := BitVec.ofNat 16 (s.block.flen.toNat + 1) }
          pending := rest
          results := s.results ++ [.accepted] } ∧
        fb.read s.block.flen.toNat = some b ∧
        ∀ a : Nat, a ≠ s.block.flen.toNat → fb.read a = s.block.fb.read a) ∧
    (¬(s.block.status.getLsbD 7 = false ∧ s.block.flen.toNat < s.frameCap) →
      step s = .next { s with
        block := { s.block with status := s.block.status ||| 8#8 }
        pending := rest
        results := s.results ++ [.refused] })

/-- R45, R22: HostRead returns the current value of what it names, in either mode, and changes no state of the block. -/
def Obligations.HostReadReturnsTheValue : Prop :=
  ∀ (s : State) (t : Target) (rest : List HostAction), s.pending = .read t :: rest →
    ∃ r : HostResult,
      step s = .next { s with pending := rest, results := s.results ++ [r] } ∧
      (∀ i : Reg, t = .reg i → r = .word s.block.x[i]) ∧
      (∀ i : Fin 16, t = .arr i → r = .byte s.block.arr[i]) ∧
      (∀ c : Csr, t = .csr c → ∃ v : Word, r = .word v ∧
        (c.number = 0 → v.toNat = s.block.status.toNat) ∧
        (c.number = 1 → v.toNat = s.block.off.toNat) ∧
        (c.number = 2 → v.toNat = s.block.rem.toNat) ∧
        (c.number = 3 → v.toNat = s.block.flen.toNat) ∧
        (c.number = 4 → v.toNat = s.block.sum.toNat) ∧
        (c.number = 5 → v.toNat = s.block.lane.toNat) ∧
        (c.number = 6 → v.toNat = s.block.alen.toNat))

/-- R25: the values of every piece of state after reset and after every `CLOSE`. -/
def Obligations.ResetAndCloseValues : Prop :=
  ∀ b : Block,
    (b = State.reset.block ∨
     (∃ (s t : State) (rest : List HostAction),
        s.pending = .reset :: rest ∧ step s = .next t ∧ b = t.block) ∨
     (∃ s t : State, exec .closeCall s = .next t ∧ b = t.block)) →
    (∀ i : Reg, b.x[i] = 0x00000000#32) ∧ (∀ i : Fin 16, b.arr[i] = 0x00#8) ∧ b.alen = 0 ∧ b.flen = 0 ∧ b.fb = [] ∧
    b.off = 0 ∧ b.rem = 0 ∧ b.sum = 0x0000#16 ∧ b.lane = 0 ∧ b.status = 0x00#8

/-- R46, R127, R128: HostReset, in any state, gives the block the state `CLOSE` gives it; `CLOSE` returns DONE.
That the host's stream and results are kept is the model's choice (log entries 2, 3 and 9). -/
def Obligations.HostResetEqualsClose : Prop :=
  ∀ (s t : State) (rest : List HostAction), s.pending = .reset :: rest → exec .closeCall s = .next t →
    step s = .next { s with block := t.block, pending := rest } ∧ t.results = s.results ++ [.completed .done]

/-! ## The commands: frame control (42_frame_and_register_control.md) -/

/-- R102: `NOP` in any state returns DONE and changes nothing. -/
def Obligations.NopDoesNothing : Prop :=
  encode .nop = 0x00000000 ∧ ∀ s : State, exec .nop s = .next (s.doneWith s.block)

/-- R103: `OPEN` in IDLE puts the cursor over the whole frame and enters ACTIVE; in ACTIVE it is a SequenceError. -/
def Obligations.OpenBeginsACall : Prop :=
  encode .openCall = 0x01000000 ∧
  ∀ s : State,
    (s.block.status.getLsbD 7 = false →
      exec .openCall s = .next (s.doneWith
        { s.block with off := 0, rem := s.block.flen, status := s.block.status ||| 0x80#8 })) ∧
    (s.block.status.getLsbD 7 = true → exec .openCall s = .next (s.onlySets 2 .seq))

/-- R104: `CLOSE` in either mode puts every piece of state to its value in R25. -/
def Obligations.CloseForgetsEverything : Prop :=
  encode .closeCall = 0x02000000 ∧
  ∀ s : State, ∃ b : Block,
    exec .closeCall s = .next (s.doneWith b) ∧
    (∀ i : Reg, b.x[i] = 0) ∧ (∀ i : Fin 16, b.arr[i] = 0) ∧ b.alen = 0 ∧ b.flen = 0 ∧ b.fb = [] ∧
    b.off = 0 ∧ b.rem = 0 ∧ b.sum = 0 ∧ b.lane = 0 ∧ b.status = 0

/-! ## The commands: registers -/

/-- R105: `LI` in ACTIVE loads its 16 bits, zero-extended; it is admitted only in ACTIVE. -/
def Obligations.LiLoadsTheImmediate : Prop :=
  ∀ (s : State) (rd : Reg) (imm16 : Half),
    (encode (.li rd imm16)).toNat = 0x10000000 + rd.val * 2 ^ 20 + imm16.toNat ∧
    (s.block.status.getLsbD 7 = true →
      exec (.li rd imm16) s = .next (s.doneWith { s.block with x := s.block.x.set rd (BitVec.ofNat 32 imm16.toNat) })) ∧
    (s.block.status.getLsbD 7 = false → exec (.li rd imm16) s = .next (s.onlySets 2 .seq))

/-- R106, R22: `RDC` in ACTIVE copies the control register of that number, zero-extended; it is admitted only in ACTIVE. -/
def Obligations.RdcReadsTheControlRegister : Prop :=
  ∀ (s : State) (rd : Reg) (csr : Csr),
    (encode (.rdc rd csr)).toNat = 0x11000000 + rd.val * 2 ^ 20 + csr.number.toNat ∧
    (s.block.status.getLsbD 7 = true → ∃ v : Word,
      exec (.rdc rd csr) s = .next (s.doneWith { s.block with x := s.block.x.set rd v }) ∧
      (csr.number = 0 → v.toNat = s.block.status.toNat ∧ v.getLsbD 7 = true) ∧
      (csr.number = 1 → v.toNat = s.block.off.toNat) ∧
      (csr.number = 2 → v.toNat = s.block.rem.toNat) ∧
      (csr.number = 3 → v.toNat = s.block.flen.toNat) ∧
      (csr.number = 4 → v.toNat = s.block.sum.toNat) ∧
      (csr.number = 5 → v.toNat = s.block.lane.toNat) ∧
      (csr.number = 6 → v.toNat = s.block.alen.toNat)) ∧
    (s.block.status.getLsbD 7 = false → exec (.rdc rd csr) s = .next (s.onlySets 2 .seq))

/-- R93: `EXT` in ACTIVE writes `(x[rs1] div 2^lsb) mod 2^width`, the source read first. -/
def Obligations.ExtExtractsTheField : Prop :=
  ∀ (s : State) (rd rs1 : Reg) (lsb : BitVec 5) (width : BitVec 6),
    1 ≤ width.toNat → width.toNat ≤ 32 → lsb.toNat + width.toNat ≤ 32 →
    (encode (.ext rd rs1 lsb width)).toNat =
      0x12000000 + rd.val * 2 ^ 20 + rs1.val * 2 ^ 16 + lsb.toNat * 2 ^ 8 + width.toNat ∧
    (s.block.status.getLsbD 7 = true →
      exec (.ext rd rs1 lsb width) s = .next (s.doneWith { s.block with
        x := s.block.x.set rd (BitVec.ofNat 32 (s.block.x[rs1].toNat / 2 ^ lsb.toNat % 2 ^ width.toNat)) }))

/-! ## The commands: field readers (41_field_readers.md) -/

/-- R87: `RDU8` in ACTIVE reads the byte at the cursor and consumes it, or raises OutOfBounds where `REM = 0`. -/
def Obligations.Rdu8ReadsOneByte : Prop :=
  ∀ (s : State) (rd : Reg),
    (encode (.rdu8 rd)).toNat = 0x20000000 + rd.val * 2 ^ 20 ∧
    (Inv s → s.block.status.getLsbD 7 = true → 1 ≤ s.block.rem.toNat → ∃ b0 : Byte,
      s.block.fb.read s.block.off.toNat = some b0 ∧
      exec (.rdu8 rd) s = .next (s.doneWith { s.block with
        x := s.block.x.set rd (BitVec.ofNat 32 b0.toNat)
        off := BitVec.ofNat 16 (s.block.off.toNat + 1)
        rem := BitVec.ofNat 16 (s.block.rem.toNat - 1) })) ∧
    (s.block.status.getLsbD 7 = true → 1 > s.block.rem.toNat → exec (.rdu8 rd) s = .next (s.onlySets 0 .oob))

/-- R88: `RDU16` in ACTIVE reads a big-endian 16-bit field and consumes it, or raises OutOfBounds where `REM < 2`. -/
def Obligations.Rdu16ReadsBigEndian : Prop :=
  ∀ (s : State) (rd : Reg),
    (encode (.rdu16 rd)).toNat = 0x21000000 + rd.val * 2 ^ 20 ∧
    (Inv s → s.block.status.getLsbD 7 = true → 2 ≤ s.block.rem.toNat → ∃ b0 b1 : Byte,
      s.block.fb.read s.block.off.toNat = some b0 ∧ s.block.fb.read (s.block.off.toNat + 1) = some b1 ∧
      exec (.rdu16 rd) s = .next (s.doneWith { s.block with
        x := s.block.x.set rd (BitVec.ofNat 32 (256 * b0.toNat + b1.toNat))
        off := BitVec.ofNat 16 (s.block.off.toNat + 2)
        rem := BitVec.ofNat 16 (s.block.rem.toNat - 2) })) ∧
    (s.block.status.getLsbD 7 = true → 2 > s.block.rem.toNat → exec (.rdu16 rd) s = .next (s.onlySets 0 .oob))

/-- R89: `RDU32` in ACTIVE reads a big-endian 32-bit field and consumes it, or raises OutOfBounds where `REM < 4`. -/
def Obligations.Rdu32ReadsBigEndian : Prop :=
  ∀ (s : State) (rd : Reg),
    (encode (.rdu32 rd)).toNat = 0x22000000 + rd.val * 2 ^ 20 ∧
    (Inv s → s.block.status.getLsbD 7 = true → 4 ≤ s.block.rem.toNat → ∃ b0 b1 b2 b3 : Byte,
      s.block.fb.read s.block.off.toNat = some b0 ∧ s.block.fb.read (s.block.off.toNat + 1) = some b1 ∧
      s.block.fb.read (s.block.off.toNat + 2) = some b2 ∧ s.block.fb.read (s.block.off.toNat + 3) = some b3 ∧
      exec (.rdu32 rd) s = .next (s.doneWith { s.block with
        x := s.block.x.set rd
          (BitVec.ofNat 32 (16777216 * b0.toNat + 65536 * b1.toNat + 256 * b2.toNat + b3.toNat))
        off := BitVec.ofNat 16 (s.block.off.toNat + 4)
        rem := BitVec.ofNat 16 (s.block.rem.toNat - 4) })) ∧
    (s.block.status.getLsbD 7 = true → 4 > s.block.rem.toNat → exec (.rdu32 rd) s = .next (s.onlySets 0 .oob))

/-- R90: `RDA n` in ACTIVE reads `n` bytes into `ARR` in frame order, zeroes the tail, sets `ALEN` and consumes them,
or raises OutOfBounds where `REM < n`. -/
def Obligations.RdaReadsTheArray : Prop :=
  ∀ (s : State) (n : Half), 1 ≤ n.toNat → n.toNat ≤ 16 →
    (encode (.rda n)).toNat = 0x23000000 + n.toNat ∧
    (Inv s → s.block.status.getLsbD 7 = true → n.toNat ≤ s.block.rem.toNat → ∃ arr : Vector Byte 16,
      exec (.rda n) s = .next (s.doneWith { s.block with
        arr := arr
        alen := BitVec.ofNat 5 n.toNat
        off := BitVec.ofNat 16 (s.block.off.toNat + n.toNat)
        rem := BitVec.ofNat 16 (s.block.rem.toNat - n.toNat) }) ∧
      (∀ i : Fin 16, i.val < n.toNat → s.block.fb.read (s.block.off.toNat + i.val) = some arr[i]) ∧
      (∀ i : Fin 16, n.toNat ≤ i.val → arr[i] = 0)) ∧
    (s.block.status.getLsbD 7 = true → n.toNat > s.block.rem.toNat →
      exec (.rda n) s = .next (s.onlySets 0 .oob))

/-- R91: `SKIP n` in ACTIVE consumes `n` bytes and delivers nothing, or raises OutOfBounds where `REM < n`. -/
def Obligations.SkipConsumesOpaqueBytes : Prop :=
  ∀ (s : State) (n : Half),
    (encode (.skip n)).toNat = 0x24000000 + n.toNat ∧
    (Inv s → s.block.status.getLsbD 7 = true → n.toNat ≤ s.block.rem.toNat →
      exec (.skip n) s = .next (s.doneWith { s.block with
        off := BitVec.ofNat 16 (s.block.off.toNat + n.toNat)
        rem := BitVec.ofNat 16 (s.block.rem.toNat - n.toNat) })) ∧
    (s.block.status.getLsbD 7 = true → n.toNat > s.block.rem.toNat →
      exec (.skip n) s = .next (s.onlySets 0 .oob)) ∧
    (s.block.status.getLsbD 7 = true → n = 0 → exec (.skip n) s = .next (s.doneWith s.block))

/-- R92: `LIMIT n` in ACTIVE narrows the window to its first `n` bytes, or raises OutOfBounds where `n > REM`. -/
def Obligations.LimitNarrowsTheWindow : Prop :=
  ∀ (s : State) (n : Half),
    (encode (.limit n)).toNat = 0x25000000 + n.toNat ∧
    (s.block.status.getLsbD 7 = true → n.toNat ≤ s.block.rem.toNat →
      exec (.limit n) s = .next (s.doneWith { s.block with rem := n })) ∧
    (s.block.status.getLsbD 7 = true → n.toNat > s.block.rem.toNat →
      exec (.limit n) s = .next (s.onlySets 0 .oob))

/-! ## The commands: checksum (40_checksum_engine.md) -/

/-- R78: `CKCLR` in ACTIVE clears the accumulator, and `CKGET` after it gives 0x0000FFFF. -/
def Obligations.CkclrClearsTheAccumulator : Prop :=
  encode .ckclr = 0x30000000 ∧
  ∀ s : State, s.block.status.getLsbD 7 = true →
    exec .ckclr s = .next (s.doneWith { s.block with sum := 0, lane := 0 }) ∧
    ∀ (t : State) (rd : Reg), exec .ckclr s = .next t →
      ∃ u : State, exec (.ckget rd) t = .next u ∧ u.block.x[rd] = 0x0000FFFF#32

/-- R79: `CKADD` in ACTIVE feeds the whole region to the accumulator in order, or raises OutOfBounds where
`a + l > FLEN` on naturals. -/
def Obligations.CkaddFeedsTheRegion : Prop :=
  ∀ (s : State) (rs1 rs2 : Reg),
    (encode (.ckadd rs1 rs2)).toNat = 0x31000000 + rs1.val * 2 ^ 16 + rs2.val * 2 ^ 12 ∧
    (Inv s → s.block.status.getLsbD 7 = true → s.block.x[rs1].toNat + s.block.x[rs2].toNat ≤ s.block.flen.toNat →
      ∃ bytes : List Byte, bytes.length = s.block.x[rs2].toNat ∧ s.block.HoldsAt s.block.x[rs1].toNat bytes ∧
        exec (.ckadd rs1 rs2) s = .next (s.doneWith { s.block with
          sum := (ckFeed (s.block.sum, s.block.lane) bytes).1
          lane := (ckFeed (s.block.sum, s.block.lane) bytes).2 })) ∧
    (s.block.status.getLsbD 7 = true → s.block.x[rs1].toNat + s.block.x[rs2].toNat > s.block.flen.toNat →
      exec (.ckadd rs1 rs2) s = .next (s.onlySets 0 .oob))

/-- R80: `CKGET` in ACTIVE gives the one's complement of `SUM`, its upper half 0, and leaves the accumulator;
the value is the checksum of the bytes fed so far. -/
def Obligations.CkgetReadsTheChecksum : Prop :=
  ∀ (s : State) (rd : Reg),
    (encode (.ckget rd)).toNat = 0x32000000 + rd.val * 2 ^ 20 ∧
    (s.block.status.getLsbD 7 = true →
      exec (.ckget rd) s = .next (s.doneWith { s.block with x := s.block.x.set rd ((~~~ s.block.sum).setWidth 32) }) ∧
      ∀ fed : List Byte, (s.block.sum, s.block.lane) = ckFeed (0, 0) fed → ~~~ s.block.sum = internetChecksum fed)

/-- R81, R69: `CKSUM` in ACTIVE computes the Internet checksum of the region, word by word as the document defines it,
and leaves the region's sum in the accumulator, or raises OutOfBounds and changes nothing else.
Where the check passes it is exactly `CKCLR ; CKADD rs1, rs2 ; CKGET rd`. -/
def Obligations.CksumIsTheInternetChecksum : Prop :=
  ∀ (s : State) (rd rs1 rs2 : Reg),
    (encode (.cksum rd rs1 rs2)).toNat = 0x34000000 + rd.val * 2 ^ 20 + rs1.val * 2 ^ 16 + rs2.val * 2 ^ 12 ∧
    (Inv s → s.block.status.getLsbD 7 = true → s.block.x[rs1].toNat + s.block.x[rs2].toNat ≤ s.block.flen.toNat →
      ∃ bytes : List Byte, bytes.length = s.block.x[rs2].toNat ∧ s.block.HoldsAt s.block.x[rs1].toNat bytes ∧
        exec (.cksum rd rs1 rs2) s = .next (s.doneWith { s.block with
          x := s.block.x.set rd ((internetChecksum bytes).setWidth 32)
          sum := (ckFeed (0, 0) bytes).1
          lane := (ckFeed (0, 0) bytes).2 }) ∧
        ∃ t1 t2 t3 u : State,
          exec .ckclr s = .next t1 ∧ exec (.ckadd rs1 rs2) t1 = .next t2 ∧ exec (.ckget rd) t2 = .next t3 ∧
          exec (.cksum rd rs1 rs2) s = .next u ∧ u.block = t3.block) ∧
    (s.block.status.getLsbD 7 = true → s.block.x[rs1].toNat + s.block.x[rs2].toNat > s.block.flen.toNat →
      exec (.cksum rd rs1 rs2) s = .next (s.onlySets 0 .oob))

/-- R82: `CKVFY` in ACTIVE gives 1 if `SUM` is all ones, else 0, and 1 exactly when `CKGET` would give 0;
the accumulator and STATUS are unchanged. -/
def Obligations.CkvfyTestsForAllOnes : Prop :=
  ∀ (s : State) (rd : Reg),
    (encode (.ckvfy rd)).toNat = 0x33000000 + rd.val * 2 ^ 20 ∧
    (s.block.status.getLsbD 7 = true → ∃ t u : State,
      exec (.ckvfy rd) s = .next t ∧ exec (.ckget rd) s = .next u ∧
      t = s.doneWith { s.block with x := s.block.x.set rd t.block.x[rd] } ∧
      (s.block.sum = 0xFFFF → t.block.x[rd] = 1) ∧ (s.block.sum ≠ 0xFFFF → t.block.x[rd] = 0) ∧
      (t.block.x[rd] = 1 ↔ u.block.x[rd] = 0))

/-! ## Exceptions and modes (60_exceptions.md) -/

/-- R110: every command word completes with exactly one of four codes, returned and not stored in the block;
each code but DONE comes with its sticky bit. That it completes is said of the states that meet the invariants (R24);
what it returns when it does, of every state. -/
def Obligations.EveryCommandReturnsOneCode : Prop :=
  ∀ (s : State) (w : Word) (rest : List HostAction), s.pending = .command w :: rest →
    (Inv s → ∃ t : State, step s = .next t) ∧
    ∀ t : State, step s = .next t → ∃ c : Code, t.results = s.results ++ [.completed c] ∧ c.number ≤ 3 ∧
      (c.number = 1 → t.block = { s.block with status := s.block.status ||| 0x01#8 }) ∧
      (c.number = 2 → t.block = { s.block with status := s.block.status ||| 0x02#8 }) ∧
      (c.number = 3 → t.block = { s.block with status := s.block.status ||| 0x04#8 })

/-- R10, R100: a command that completes with a code other than DONE has set the bit of its exception in STATUS
and changed nothing else. `exec` of an instruction no word encodes completing as ILL is the model's choice (log entry 5). -/
def Obligations.ExceptionWritesOnlyItsBit : Prop :=
  ∀ (i : Instr) (s t : State), exec i s = .next t →
    t = s.doneWith t.block ∨ t = s.onlySets 0 .oob ∨ t = s.onlySets 1 .ill ∨ t = s.onlySets 2 .seq

/-- R101, R112: a legal command not admitted in the mode sets `SEQ` and changes nothing else;
in IDLE only `NOP`, `OPEN`, `CLOSE` are admitted, in ACTIVE every command except `OPEN`. -/
def Obligations.SequenceErrorByMode : Prop :=
  ∀ (i : Instr) (s : State), i.wellFormed = true →
    ((s.block.status.getLsbD 7 = false ∧ i ≠ .nop ∧ i ≠ .openCall ∧ i ≠ .closeCall) ∨
      (s.block.status.getLsbD 7 = true ∧ i = .openCall) →
      exec i s = .next (s.onlySets 2 .seq)) ∧
    ((s.block.status.getLsbD 7 = false ∧ (i = .nop ∨ i = .openCall ∨ i = .closeCall)) ∨
      (s.block.status.getLsbD 7 = true ∧ i ≠ .openCall) →
      ∀ t : State, exec i s = .next t → t.results ≠ s.results ++ [.completed .seq])

/-- R113: OutOfBounds exactly where a bounds check fails, in a command that has one; it sets `OOB` and changes nothing else. -/
def Obligations.OutOfBoundsExactly : Prop :=
  ∀ (i : Instr) (s : State), i.wellFormed = true →
    (s.block.status.getLsbD 7 = true → OutOfBoundsIn i s.block → exec i s = .next (s.onlySets 0 .oob)) ∧
    (∀ t : State, exec i s = .next t → t.results = s.results ++ [.completed .oob] →
      s.block.status.getLsbD 7 = true ∧ OutOfBoundsIn i s.block)

/-- R117, R111, R100: illegal before sequence before bounds; an illegal word is ILL in either mode. -/
def Obligations.ExceptionPriority : Prop :=
  ∀ (s : State) (w : Word) (rest : List HostAction), s.pending = .command w :: rest →
    (IsIllegal w → step s = .next ({ s with pending := rest }.onlySets 1 .ill)) ∧
    (∀ i : Instr, decode w = .ok i → admitted i.op s.block.active = false →
      step s = .next ({ s with pending := rest }.onlySets 2 .seq)) ∧
    (∀ i : Instr, decode w = .ok i → admitted i.op s.block.active = true → OutOfBoundsIn i s.block →
      step s = .next ({ s with pending := rest }.onlySets 0 .oob))

/-- R115: a sticky bit that is set stays set through every host action but a reset or a `CLOSE`, which clear all four. -/
def Obligations.StickyBitsStay : Prop :=
  ∀ s t : State, step s = .next t →
    (¬ s.EndsCall → ∀ k : Nat, k < 4 → s.block.status.getLsbD k = true → t.block.status.getLsbD k = true) ∧
    (s.EndsCall → ∀ k : Nat, k < 4 → t.block.status.getLsbD k = false)

/-- R121: IDLE to ACTIVE by a successful `OPEN`, ACTIVE to IDLE by `CLOSE` or reset, no other change of mode. -/
def Obligations.ModeTransitions : Prop :=
  ∀ s t : State, step s = .next t →
    (s.block.status.getLsbD 7 = false →
      (t.block.status.getLsbD 7 = true ↔
        ∃ w, s.pending.head? = some (.command w) ∧ decode w = .ok .openCall)) ∧
    (s.block.status.getLsbD 7 = true → (t.block.status.getLsbD 7 = false ↔ s.EndsCall))

/-! ## Invariants (10_state.md R24) -/

/-- R24, R25: the invariants hold after reset, whatever legal value the parameter `FRAME_CAP` has.
`State.reset` is the case of the default value (log entry 1), on which nothing here rests. -/
def Obligations.ResetMeetsTheInvariants : Prop :=
  ∀ cap : Nat, Config.ValidFrameCap cap → Inv { State.reset with frameCap := cap }

/-- R24: every host action keeps the invariants, from every state that meets them. -/
def Obligations.StepKeepsTheInvariants : Prop :=
  ∀ s t : State, Inv s → step s = .next t → Inv t

/-- R135: from every state that meets the invariants, every host action has a next state: the block is never stuck.
That `step` answers with no action given is the model's choice (log entry 2). -/
def Obligations.BlockIsNeverStuck : Prop :=
  ∀ s : State, Inv s → ∃ t : State, step s = .next t

/-- R47, R24 (I4): from a successful `OPEN` to the next `CLOSE` or reset nothing changes the frame. -/
def Obligations.FrameIsImmutableInACall : Prop :=
  ∀ s t : State, s.block.status.getLsbD 7 = true → ¬ s.EndsCall → step s = .next t →
    t.block.flen = s.block.flen ∧ t.block.fb = s.block.fb ∧
    ∀ a : Nat, t.block.fb.read a = s.block.fb.read a

/-- R19, R24 (I7): within a call the cursor never moves backwards and the window never grows at either end;
only `LIMIT` moves the window's end. -/
def Obligations.CursorOnlyAdvances : Prop :=
  ∀ (i : Instr) (s t : State), Inv s → i ≠ .openCall → i ≠ .closeCall → exec i s = .next t →
    s.block.off.toNat ≤ t.block.off.toNat ∧ t.block.rem.toNat ≤ s.block.rem.toNat ∧
    t.block.off.toNat + t.block.rem.toNat ≤ s.block.off.toNat + s.block.rem.toNat ∧
    ((∀ n, i ≠ .limit n) →
      t.block.off.toNat + t.block.rem.toNat = s.block.off.toNat + s.block.rem.toNat)

/-- The parameter `FRAME_CAP` is fixed for an instance: no step changes it (the model's field, log entry 1). -/
def Obligations.FrameCapIsFixed : Prop :=
  ∀ s t : State, step s = .next t → t.frameCap = s.frameCap

/-! ## Frames (10_state.md R23) -/

/-- R23, R15, R16: a command changes no general register but its `rd`, and only `RDA` changes `ARR` and `ALEN`;
`CLOSE` clears them all. -/
def Obligations.RegisterFrame : Prop :=
  ∀ (i : Instr) (s t : State), i ≠ .closeCall → exec i s = .next t →
    (∀ r : Reg, destReg i ≠ some r → t.block.x[r] = s.block.x[r]) ∧
    ((∀ n, i ≠ .rda n) → t.block.arr = s.block.arr ∧ t.block.alen = s.block.alen)

/-- R23, R38: no command but `CLOSE` writes the frame: every byte of it reads as before; and the cursor is moved by
`OPEN`, the reads, `SKIP` and `LIMIT` alone. That it leaves the rest of the host's stream is the model's choice (log entry 2). -/
def Obligations.FrameStoreAndCursorFrame : Prop :=
  ∀ (i : Instr) (s t : State), i ≠ .closeCall → exec i s = .next t →
    (∀ a : Nat, t.block.fb.read a = s.block.fb.read a) ∧ t.block.flen = s.block.flen ∧
    (windowNeed i = none → i ≠ .openCall → t.block.off = s.block.off ∧ t.block.rem = s.block.rem) ∧
    t.pending = s.pending

/-- R23, R20, R74: the accumulator is written by `CKCLR`, `CKADD`, `CKSUM` and `CLOSE` alone; a command that returns DONE
leaves STATUS as it was, but for `OPEN` and `CLOSE`. -/
def Obligations.AccumulatorAndStatusFrame : Prop :=
  ∀ (i : Instr) (s t : State), i ≠ .closeCall → exec i s = .next t →
    (i ≠ .ckclr → regionRegs i = none → t.block.sum = s.block.sum ∧ t.block.lane = s.block.lane) ∧
    (i ≠ .openCall → t.results = s.results ++ [.completed .done] → t.block.status = s.block.status) ∧
    (∀ k : Nat, 3 ≤ k → (i = .openCall → k ≠ 7) → t.block.status.getLsbD k = s.block.status.getLsbD k)

/-! ## The checksum as a function (40_checksum_engine.md section 1, 2) -/

/-- R71 (c): the accumulator of R70, the closed form and the document's word-wise function R69 agree on every byte sequence. -/
def Obligations.AccumulatorAgreesWithTheChecksum : Prop :=
  ∀ s : List Byte,
    (ckFeed (0, 0) s).1.toNat = reduced (byteTotal s) ∧
    (ckFeed (0, 0) s).2.toNat = s.length % 2 ∧
    (internetChecksum s).toNat = 65535 - reduced (byteTotal s)

/-- R71, R24 (I6): the sum is 0 only if every byte fed was 0; a nonzero sum stays nonzero until cleared. -/
def Obligations.SumIsZeroOnlyOfZeroBytes : Prop :=
  (∀ s : List Byte, (ckFeed (0, 0) s).1 = 0 ↔ ∀ b ∈ s, b = 0) ∧
  ∀ (acc : Accumulator) (s : List Byte), acc.1 ≠ 0 → (ckFeed acc s).1 ≠ 0

/-- R73: regions are summed as one concatenated byte sequence: where the accumulator holds the sum of the bytes fed since
`CKCLR`, after a successful `CKADD` it holds the sum of those and the region's. -/
def Obligations.RegionsAreConcatenated : Prop :=
  (∀ s t : State, s.block.status.getLsbD 7 = true → exec .ckclr s = .next t →
    (t.block.sum, t.block.lane) = ckFeed (0, 0) []) ∧
  ∀ (s : State) (fed : List Byte) (rs1 rs2 : Reg), Inv s → s.block.status.getLsbD 7 = true →
    (s.block.sum, s.block.lane) = ckFeed (0, 0) fed →
    s.block.x[rs1].toNat + s.block.x[rs2].toNat ≤ s.block.flen.toNat →
    ∃ (t : State) (bytes : List Byte),
      exec (.ckadd rs1 rs2) s = .next t ∧ bytes.length = s.block.x[rs2].toNat ∧
      s.block.HoldsAt s.block.x[rs1].toNat bytes ∧ (t.block.sum, t.block.lane) = ckFeed (0, 0) (fed ++ bytes)

/-- R74: what `CKSUM` gives depends on the bytes of its region alone, not on the earlier accumulator, the cursor,
the rest of the frame or any other register. -/
def Obligations.CksumDependsOnItsRegionOnly : Prop :=
  ∀ (s s' : State) (rd rs1 rs2 : Reg), Inv s → Inv s' →
    s.block.status.getLsbD 7 = true → s'.block.status.getLsbD 7 = true →
    s.block.x[rs1].toNat + s.block.x[rs2].toNat ≤ s.block.flen.toNat →
    s'.block.x[rs1].toNat + s'.block.x[rs2].toNat ≤ s'.block.flen.toNat →
    s.block.x[rs2] = s'.block.x[rs2] →
    (∀ k : Nat, k < s.block.x[rs2].toNat →
      s.block.fb.read (s.block.x[rs1].toNat + k) = s'.block.fb.read (s'.block.x[rs1].toNat + k)) →
    ∃ t t' : State, exec (.cksum rd rs1 rs2) s = .next t ∧ exec (.cksum rd rs1 rs2) s' = .next t' ∧
      t.block.x[rd] = t'.block.x[rd] ∧ t.block.sum = t'.block.sum ∧ t.block.lane = t'.block.lane

/-- R75 (a), (b), (d), (f): the empty and the all-zero sequence give 0xFFFF; appended zero bytes and zero words at an even
index change nothing; neither does the order of aligned words. -/
def Obligations.ChecksumZeroAndSwapFacts : Prop :=
  (∀ n : Nat, internetChecksum (List.replicate n 0) = 0xFFFF#16) ∧
  (∀ (s : List Byte) (n : Nat), internetChecksum (s ++ List.replicate n 0) = internetChecksum s) ∧
  (∀ (s u : List Byte) (n : Nat), s.length % 2 = 0 →
    internetChecksum (s ++ List.replicate (2 * n) 0 ++ u) = internetChecksum (s ++ u)) ∧
  (∀ (p m u : List Byte) (a b c d : Byte), p.length % 2 = 0 → m.length % 2 = 0 →
    internetChecksum (p ++ [a, b] ++ m ++ [c, d] ++ u) = internetChecksum (p ++ [c, d] ++ m ++ [a, b] ++ u))

/-- R75 (e): a single-bit corruption of a sequence whose checksum is 0 is always detected. -/
def Obligations.SingleBitCorruptionIsDetected : Prop :=
  ∀ (p u : List Byte) (b : Byte) (k : Nat), k < 8 → internetChecksum (p ++ [b] ++ u) = 0 →
    internetChecksum (p ++ [b ^^^ (1#8 <<< k)] ++ u) ≠ 0

/-- R75 (g): a header finished with the checksum computed over its zeroed field sums to 0x0000. -/
def Obligations.FinishedHeaderChecksToZero : Prop :=
  ∀ (p u : List Byte) (hi lo : Byte), p.length % 2 = 0 → u.length % 2 = 0 →
    internetChecksum (p ++ [0, 0] ++ u) = hi ++ lo →
    internetChecksum (p ++ [hi, lo] ++ u) = 0

/-- R83, C1: the two validations of a stored checksum agree on every input but one, where the sum without the field and the
stored value are both 0xFFFF: there the zeroed-field method rejects and the full-sum method accepts. -/
def Obligations.ValidationMethodsDifferInOneCase : Prop :=
  ∀ (p u : List Byte) (hi lo : Byte), p.length % 2 = 0 → u.length % 2 = 0 →
    (¬((ckFeed (0, 0) (p ++ u)).1 = 0xFFFF ∧ hi ++ lo = 0xFFFF#16) →
      (internetChecksum (p ++ u) = hi ++ lo ↔ internetChecksum (p ++ [hi, lo] ++ u) = 0)) ∧
    ((ckFeed (0, 0) (p ++ u)).1 = 0xFFFF ∧ hi ++ lo = 0xFFFF#16 →
      internetChecksum (p ++ u) ≠ hi ++ lo ∧ internetChecksum (p ++ [hi, lo] ++ u) = 0)

/-! ## Byte and bit order (20_memory.md R35, R36; 41_field_readers.md R94) -/

/-- R36: in the value of an `n`-byte read, bit `8n-1` is the most significant bit of the first byte on the wire and bit 0 the
least significant bit of the last. -/
def Obligations.FieldBitsAreWireBits : Prop :=
  ∀ (s : List Byte) (k : Nat), s.length ≤ 4 → k < 8 * s.length →
    (wireBits s)[k]? = some ((fieldValue s).getLsbD (8 * s.length - 1 - k))

/-- R35: two bytes read as `RDU16` give `256*b0 + b1` where `RDU8` twice gives `b0` then `b1`, and the cursor ends at the
same place. -/
def Obligations.MixedWidthReadsSeeTheSameBytes : Prop :=
  ∀ (s : State) (r0 r1 : Reg), Inv s → s.block.status.getLsbD 7 = true → 2 ≤ s.block.rem.toNat →
    ∃ t u v : State,
      exec (.rdu8 r0) s = .next t ∧ exec (.rdu8 r1) t = .next u ∧ exec (.rdu16 r0) s = .next v ∧
      v.block.x[r0].toNat = 256 * t.block.x[r0].toNat + u.block.x[r1].toNat ∧
      v.block.off = u.block.off ∧ v.block.rem = u.block.rem

/-- R94: a field that begins `p` bits after the first bit of a group of `n` bytes and is `w` bits wide is what `EXT` gives with
`lsb = 8n - p - w` and `width = w` from the register the group was read into. -/
def Obligations.PackedFieldByExt : Prop :=
  ∀ (s : State) (rd rs1 : Reg) (bytes : List Byte) (p : Nat) (lsb : BitVec 5) (width : BitVec 6),
    s.block.status.getLsbD 7 = true → bytes.length ≤ 4 → s.block.x[rs1] = fieldValue bytes →
    1 ≤ width.toNat → p + width.toNat ≤ 8 * bytes.length → lsb.toNat = 8 * bytes.length - p - width.toNat →
    ∃ t : State, exec (.ext rd rs1 lsb width) s = .next t ∧
      t.block.x[rd].toNat = bitsNumber (((wireBits bytes).drop p).take width.toNat)

/-- R52: the view of an opaque region, `OFF` before a `SKIP n` that completes with DONE and `n`, and the view of the bytes
left, lie inside the frame and follow one another. -/
def Obligations.ViewsStayInTheFrame : Prop :=
  ∀ (s t : State) (n : Half), Inv s → exec (.skip n) s = .next t → t.results = s.results ++ [.completed .done] →
    s.block.off.toNat + n.toNat ≤ s.block.flen.toNat ∧
    t.block.view.1 = s.block.off.toNat + n.toNat ∧
    t.block.view.1 + t.block.view.2 ≤ t.block.flen.toNat

/-! ## Calls do not interfere (70_reset_and_hazards.md R129) -/

/-- R129, R128: from any two states of instances with one FRAME_CAP, a `CLOSE` or a reset followed by the same host actions
gives the same block after any number of steps, and returns the same results: what came before leaves no trace. That the same actions are then left in the stream,
and that results are a list, is the model's choice (log entries 2 and 3). -/
def Obligations.CallsDoNotInterfere : Prop :=
  ∀ (s s' t : State) (k : Nat),
    s.EndsCall → s.frameCap = s'.frameCap → s.pending = s'.pending →
    Host.Core.run Sys2Proof.core (k + 1) s = .next t →
    ∃ (t' : State) (new : List HostResult), Host.Core.run Sys2Proof.core (k + 1) s' = .next t' ∧
      t.block = t'.block ∧ t.pending = t'.pending ∧
      t.results = s.results ++ new ∧ t'.results = s'.results ++ new
end

