-- ==== Sys2Proof/Laws/Checksum.lean ====
section
/-! SUPPORT. The arithmetic of the checksum: one carry step, the reduced total, and feeding a sequence in pieces (40_checksum_engine.md R70, R71). -/

namespace Sys2Proof.Machine

/-- `oc_add16` on naturals: one carry step suffices (00_scope.md R9). -/
theorem ocAdd16_toNat (a b : Half) :
    (ocAdd16 a b).toNat = if a.toNat + b.toNat < 65536 then a.toNat + b.toNat else a.toNat + b.toNat - 65535 := by
  have := a.isLt
  have := b.isLt
  unfold ocAdd16
  rw [BitVec.toNat_ofNat]
  split <;> omega

@[simp] theorem reduced_zero : reduced 0 = 0 := rfl

theorem reduced_lt (t : Nat) : reduced t < 65536 := by
  unfold reduced; split <;> omega

theorem reduced_pos {t : Nat} (h : 0 < t) : reduced t = (t - 1) % 65535 + 1 := by
  unfold reduced; rw [if_neg (by omega)]

theorem reduced_eq_zero_iff (t : Nat) : reduced t = 0 ↔ t = 0 := by
  unfold reduced; split <;> omega

/-- R71 (a): "for any 16-bit w, oc_add16(red(A), w) = red(A + w)". -/
theorem ocAdd16_reduced (a : Half) (total : Nat) (w : Half) (h : a.toNat = reduced total) :
    (ocAdd16 a w).toNat = reduced (total + w.toNat) := by
  have := w.isLt
  rw [ocAdd16_toNat, h]
  unfold reduced
  split <;> split <;> split <;> omega

@[simp] theorem ckFeed_nil (acc : Accumulator) : ckFeed acc [] = acc := rfl

@[simp] theorem ckFeed_cons (acc : Accumulator) (b : Byte) (s : List Byte) :
    ckFeed acc (b :: s) = ckFeed (ckStep acc b) s := rfl

theorem ckFeed_append (acc : Accumulator) (s u : List Byte) : ckFeed acc (s ++ u) = ckFeed (ckFeed acc s) u :=
  List.foldl_append

/-- The word a byte adds, as a natural. -/
theorem laneWord_toNat (lane : BitVec 1) (b : Byte) :
    (laneWord lane b).toNat = if lane = 0 then 256 * b.toNat else b.toNat := by
  have := b.isLt
  unfold laneWord
  split <;> simp <;> omega

/-- Two bytes fed from lane 0 add one big-endian word. -/
theorem byteTotal_two (b c : Byte) (s : List Byte) :
    byteTotal (b :: c :: s) = 256 * b.toNat + c.toNat + byteTotal s := rfl

/-- An even number of bytes does not disturb the pairing of what follows. -/
theorem byteTotal_append (s u : List Byte) (h : s.length % 2 = 0) : byteTotal (s ++ u) = byteTotal s + byteTotal u := by
  induction s using byteTotal.induct with
  | case1 => simp [byteTotal]
  | case2 b => simp at h
  | case3 b c rest ih =>
    have := ih (by simp at h; omega)
    simp only [List.cons_append, byteTotal, this]
    omega

end Sys2Proof.Machine
end

