-- ==== Sys2Proof/Laws/Decode.lean ====
section
/-! SUPPORT. The fields of an assembled word, the opcode table as a lookup, and the bits its masks fix. -/

namespace Sys2Proof

/-! ## The table -/

/-- No two rows share an `op` (30_encoding.md R58). -/
theorem Op.code_injective (a b : Op) (h : a.code = b.code) : a = b := by
  revert h; cases a <;> cases b <;> decide

theorem Op.ofCode?_code (op : Op) : Op.ofCode? op.code = some op := by
  cases op <;> decide

theorem Op.ofCode?_eq_some {c : BitVec 8} {op : Op} (h : Op.ofCode? c = some op) : op.code = c := by
  have := List.find?_some h
  simpa using this

theorem Op.mem_all (op : Op) : op ∈ Op.all := by
  cases op <;> decide

/-- A reserved `op` is in no row (R60). -/
theorem Op.ofCode?_eq_none {c : BitVec 8} : Op.ofCode? c = none ↔ ∀ op : Op, op.code ≠ c := by
  unfold Op.ofCode?
  rw [List.find?_eq_none]
  constructor
  · intro h op e
    exact h op (Op.mem_all op) (by simp [e])
  · intro h op _ e
    exact h op (by simpa using e)

theorem Csr.ofNumber?_number (c : Csr) : Csr.ofNumber? c.number = some c := by
  cases c <;> decide

theorem Csr.ofNumber?_eq_some {n : Half} {c : Csr} (h : Csr.ofNumber? n = some c) : c.number = n := by
  have := List.find?_some h
  simpa using this

theorem Csr.ofNumber?_eq_none {n : Half} : Csr.ofNumber? n = none ↔ 6 < n.toNat := by
  constructor
  · intro h
    by_contra hn
    have hn : n.toNat ≤ 6 := by omega
    have : n = BitVec.ofNat 16 n.toNat := by simp
    rw [this] at h
    revert h
    generalize n.toNat = k at *
    have : k = 0 ∨ k = 1 ∨ k = 2 ∨ k = 3 ∨ k = 4 ∨ k = 5 ∨ k = 6 := by omega
    rcases this with rfl | rfl | rfl | rfl | rfl | rfl | rfl <;> decide
  · intro h
    cases e : Csr.ofNumber? n with
    | none => rfl
    | some c =>
      have := Csr.ofNumber?_eq_some e
      subst this
      revert h; cases c <;> decide

/-! ## Bits and fields of an assembled word (R54) -/

/-- The number of two bit vectors side by side. -/
theorem toNat_append_add {m n : Nat} (x : BitVec m) (y : BitVec n) : (x ++ y).toNat = x.toNat * 2 ^ n + y.toNat := by
  rw [BitVec.toNat_append, ← Nat.shiftLeft_add_eq_or_of_lt y.isLt, Nat.shiftLeft_eq]

/-- The number of an assembled word. -/
theorem assemble_toNat (op : BitVec 8) (rd rs1 : Reg) (low : Half) :
    (assemble op rd rs1 low).toNat = op.toNat * 2 ^ 24 + rd.val * 2 ^ 20 + rs1.val * 2 ^ 16 + low.toNat := by
  unfold assemble
  rw [toNat_append_add, toNat_append_add, toNat_append_add]
  simp only [BitVec.toNat_ofFin]
  omega

theorem lowRs2_toNat (rs2 : Reg) : (lowRs2 rs2).toNat = rs2.val * 2 ^ 12 := by
  unfold lowRs2
  rw [toNat_append_add]
  simp

theorem lowField_toNat (lsb : BitVec 5) (width : BitVec 6) :
    (lowField lsb width).toNat = lsb.toNat * 2 ^ 8 + width.toNat := by
  unfold lowField
  rw [toNat_append_add, toNat_append_add, toNat_append_add]
  simp only [BitVec.toNat_ofNat]
  omega

/-- A field of a word, as a number. -/
theorem extractLsb'_toNat_eq (w : Word) (lo n : Nat) : (w.extractLsb' lo n).toNat = w.toNat / 2 ^ lo % 2 ^ n := by
  simp [BitVec.extractLsb'_toNat, Nat.shiftRight_eq_div_pow]

theorem opField_toNat (w : Word) : (opField w).toNat = w.toNat / 2 ^ 24 := by
  have := w.isLt
  rw [opField, extractLsb'_toNat_eq]
  omega

theorem opField_assemble (op : BitVec 8) (rd rs1 : Reg) (low : Half) : opField (assemble op rd rs1 low) = op := by
  apply BitVec.eq_of_toNat_eq
  have h2 := rd.isLt
  have h3 := rs1.isLt
  have h4 := low.isLt
  rw [opField_toNat, assemble_toNat]
  omega

theorem rdField_assemble (op : BitVec 8) (rd rs1 : Reg) (low : Half) : rdField (assemble op rd rs1 low) = rd := by
  apply Fin.ext
  have h2 := rd.isLt
  have h3 := rs1.isLt
  have h4 := low.isLt
  change ((assemble op rd rs1 low).extractLsb' 20 4).toNat = rd.val
  rw [extractLsb'_toNat_eq, assemble_toNat]
  omega

theorem rs1Field_assemble (op : BitVec 8) (rd rs1 : Reg) (low : Half) : rs1Field (assemble op rd rs1 low) = rs1 := by
  apply Fin.ext
  have h3 := rs1.isLt
  have h4 := low.isLt
  change ((assemble op rd rs1 low).extractLsb' 16 4).toNat = rs1.val
  rw [extractLsb'_toNat_eq, assemble_toNat]
  omega

theorem immField_assemble (op : BitVec 8) (rd rs1 : Reg) (low : Half) : immField (assemble op rd rs1 low) = low := by
  apply BitVec.eq_of_toNat_eq
  have h4 := low.isLt
  rw [immField, extractLsb'_toNat_eq, assemble_toNat]
  omega

theorem rs2Field_assemble (op : BitVec 8) (rd rs1 rs2 : Reg) : rs2Field (assemble op rd rs1 (lowRs2 rs2)) = rs2 := by
  apply Fin.ext
  have h := rs2.isLt
  change ((assemble op rd rs1 (lowRs2 rs2)).extractLsb' 12 4).toNat = rs2.val
  rw [extractLsb'_toNat_eq, assemble_toNat, lowRs2_toNat]
  omega

theorem lsbField_assemble (op : BitVec 8) (rd rs1 : Reg) (lsb : BitVec 5) (width : BitVec 6) :
    lsbField (assemble op rd rs1 (lowField lsb width)) = lsb := by
  apply BitVec.eq_of_toNat_eq
  have h := lsb.isLt
  have h2 := width.isLt
  rw [lsbField, extractLsb'_toNat_eq, assemble_toNat, lowField_toNat]
  omega

theorem widthField_assemble (op : BitVec 8) (rd rs1 : Reg) (lsb : BitVec 5) (width : BitVec 6) :
    widthField (assemble op rd rs1 (lowField lsb width)) = width := by
  apply BitVec.eq_of_toNat_eq
  have h2 := width.isLt
  rw [widthField, extractLsb'_toNat_eq, assemble_toNat, lowField_toNat]
  omega

/-- A word is the word assembled from its fields. -/
theorem assemble_fields (w : Word) : assemble (opField w) (rdField w) (rs1Field w) (immField w) = w := by
  apply BitVec.eq_of_toNat_eq
  have h1 : (rdField w).val = w.toNat / 2 ^ 20 % 2 ^ 4 := extractLsb'_toNat_eq w 20 4
  have h2 : (rs1Field w).val = w.toNat / 2 ^ 16 % 2 ^ 4 := extractLsb'_toNat_eq w 16 4
  have h3 : (immField w).toNat = w.toNat / 2 ^ 0 % 2 ^ 16 := extractLsb'_toNat_eq w 0 16
  rw [assemble_toNat, opField_toNat, h1, h2, h3]
  omega

/-! ## The bits a format fixes (R55, R59) -/

/-- The mask over the `rd` field: all ones where the format fixes it to 0. -/
def Format.maskRd : Format → BitVec 4
  | .N => 0xF
  | .D => 0
  | .I => 0
  | .U => 0xF
  | .S => 0xF
  | .R => 0
  | .X => 0

/-- The mask over the `rs1` field. -/
def Format.maskRs1 : Format → BitVec 4
  | .N => 0xF
  | .D => 0xF
  | .I => 0xF
  | .U => 0xF
  | .S => 0
  | .R => 0
  | .X => 0

/-- The mask over the low half. -/
def Format.maskLow : Format → BitVec 16
  | .N => 0xFFFF
  | .D => 0xFFFF
  | .I => 0
  | .U => 0
  | .S => 0x0FFF
  | .R => 0x0FFF
  | .X => 0xE0C0

theorem Format.mask_eq (f : Format) : f.mask = 0xFF#8 ++ f.maskRd ++ f.maskRs1 ++ f.maskLow := by
  cases f <;> decide

/-- The mask test of R58, field by field. -/
theorem assemble_fits_iff (f : Format) (op op' : BitVec 8) (rd rs1 : Reg) (low : Half) :
    assemble op rd rs1 low &&& f.mask = op' ++ 0#24 ↔
      op = op' ∧ BitVec.ofFin (w := 4) rd &&& f.maskRd = 0 ∧ BitVec.ofFin (w := 4) rs1 &&& f.maskRs1 = 0 ∧
        low &&& f.maskLow = 0 := by
  have hop : op &&& 0xFF#8 = op := by
    have : (0xFF#8) = BitVec.allOnes 8 := by decide
    rw [this, BitVec.and_allOnes]
  rw [f.mask_eq, assemble, BitVec.and_append, BitVec.and_append, BitVec.and_append, hop]
  generalize BitVec.ofFin (w := 4) rd &&& f.maskRd = a
  generalize BitVec.ofFin (w := 4) rs1 &&& f.maskRs1 = b
  generalize low &&& f.maskLow = c
  rw [← BitVec.toNat_inj, toNat_append_add, toNat_append_add, toNat_append_add, toNat_append_add,
    ← BitVec.toNat_inj (x := op), ← BitVec.toNat_inj (x := a), ← BitVec.toNat_inj (x := b),
    ← BitVec.toNat_inj (x := c)]
  have := a.isLt
  have := b.isLt
  have := c.isLt
  simp only [BitVec.ofNat_eq_ofNat, BitVec.toNat_ofNat]
  omega

theorem fits_iff (w : Word) (op : Op) :
    w &&& op.format.mask = op.matchWord ↔
      opField w = op.code ∧ BitVec.ofFin (w := 4) (rdField w) &&& op.format.maskRd = 0 ∧
        BitVec.ofFin (w := 4) (rs1Field w) &&& op.format.maskRs1 = 0 ∧ immField w &&& op.format.maskLow = 0 := by
  conv_lhs => rw [← assemble_fields w]
  exact assemble_fits_iff _ _ _ _ _ _

theorem ofFin_zero_and (m : BitVec 4) : BitVec.ofFin (w := 4) (0 : Reg) &&& m = 0 := by
  revert m; decide

theorem lowRs2_and (rs2 : Reg) : lowRs2 rs2 &&& 0x0FFF#16 = 0 := by
  revert rs2; decide

theorem lowField_and (lsb : BitVec 5) (width : BitVec 6) : lowField lsb width &&& 0xE0C0#16 = 0 := by
  have : (0xE0C0#16) = 0x7#3 ++ 0#5 ++ 0x3#2 ++ 0#6 := by decide
  rw [this, lowField, BitVec.and_append, BitVec.and_append, BitVec.and_append]
  simp only [BitVec.and_zero, BitVec.zero_and]
  decide

/-- A field the mask fixes is 0. -/
theorem reg_eq_zero_of_and {r : Reg} (h : BitVec.ofFin (w := 4) r &&& 0xF#4 = 0) : r = 0 := by
  revert r; decide

theorem half_eq_zero_of_and {v : Half} (h : v &&& 0xFFFF#16 = 0) : v = 0 := by
  have : (0xFFFF#16) = BitVec.allOnes 16 := by decide
  rwa [this, BitVec.and_allOnes] at h

/-- A low half with its last 12 bits 0 is that of its `rs2` (formats S and R). -/
theorem low_eq_lowRs2 {w : Word} (h : immField w &&& 0x0FFF#16 = 0) : immField w = lowRs2 (rs2Field w) := by
  apply BitVec.eq_of_toNat_eq
  have hm : (immField w).toNat % 2 ^ 12 = 0 := by
    have := congrArg BitVec.toNat h
    rwa [BitVec.toNat_and, show (0x0FFF#16).toNat = 2 ^ 12 - 1 from rfl, Nat.and_two_pow_sub_one_eq_mod] at this
  have h2 : (rs2Field w).val = w.toNat / 2 ^ 12 % 2 ^ 4 := extractLsb'_toNat_eq w 12 4
  have h3 : (immField w).toNat = w.toNat / 2 ^ 0 % 2 ^ 16 := extractLsb'_toNat_eq w 0 16
  rw [lowRs2_toNat, h2]
  omega

/-- A low half with bits 15:13 and 7:6 all 0 is that of its `lsb` and `width` (format X). -/
theorem low_eq_lowField {w : Word} (h : immField w &&& 0xE0C0#16 = 0) :
    immField w = lowField (lsbField w) (widthField w) := by
  have hsplit : immField w = w.extractLsb' 13 3 ++ lsbField w ++ w.extractLsb' 6 2 ++ widthField w := by
    apply BitVec.eq_of_toNat_eq
    rw [toNat_append_add, toNat_append_add, toNat_append_add, immField, lsbField, widthField,
      extractLsb'_toNat_eq, extractLsb'_toNat_eq, extractLsb'_toNat_eq, extractLsb'_toNat_eq, extractLsb'_toNat_eq]
    omega
  have hmask : (0xE0C0#16) = 0x7#3 ++ 0#5 ++ 0x3#2 ++ 0#6 := by decide
  have h3 : w.extractLsb' 13 3 &&& 0x7#3 = w.extractLsb' 13 3 := by
    rw [show (0x7#3) = BitVec.allOnes 3 by decide, BitVec.and_allOnes]
  have h2 : w.extractLsb' 6 2 &&& 0x3#2 = w.extractLsb' 6 2 := by
    rw [show (0x3#2) = BitVec.allOnes 2 by decide, BitVec.and_allOnes]
  rw [hsplit, hmask, BitVec.and_append, BitVec.and_append, BitVec.and_append, h3, h2, BitVec.and_zero,
    BitVec.and_zero] at h
  have hn := congrArg BitVec.toNat h
  rw [toNat_append_add, toNat_append_add, toNat_append_add] at hn
  have ha : w.extractLsb' 13 3 = 0#3 := by
    apply BitVec.eq_of_toNat_eq; simp only [BitVec.ofNat_eq_ofNat, BitVec.toNat_ofNat] at hn ⊢; omega
  have hb : w.extractLsb' 6 2 = 0#2 := by
    apply BitVec.eq_of_toNat_eq; simp only [BitVec.ofNat_eq_ofNat, BitVec.toNat_ofNat] at hn ⊢; omega
  rw [hsplit, ha, hb]
  rfl

/-! ## The decoder, said once -/

/-- The operands of a word are those of the instruction it was assembled from. -/
theorem operands_encode (i : Instr) : operands i.op (encode i) = some i := by
  cases i <;>
    simp [operands, Instr.op, encode, rdField_assemble, rs1Field_assemble, immField_assemble, rs2Field_assemble,
      lsbField_assemble, widthField_assemble, Csr.ofNumber?_number]

theorem operands_op {op : Op} {w : Word} {i : Instr} (h : operands op w = some i) : i.op = op := by
  cases op <;> simp [operands] at h <;> (try subst h) <;> (try rfl)
  obtain ⟨c, -, rfl⟩ := h
  rfl

/-- All that a word that decodes satisfies (R58). -/
theorem decode_eq_ok {w : Word} {i : Instr} (h : decode w = .ok i) :
    opField w = i.op.code ∧ w &&& i.op.format.mask = i.op.matchWord ∧ operands i.op w = some i ∧
      i.wellFormed = true := by
  unfold decode at h
  split at h
  · cases h
  · rename_i op hop
    split at h
    · rename_i hm
      split at h
      · rename_i j hj
        split at h
        · cases h
          obtain rfl := operands_op hj
          exact ⟨(Op.ofCode?_eq_some hop).symm, hm, hj, ‹_›⟩
        · cases h
      · cases h
    · cases h

/-- A word is illegal exactly where the decoder rejects it. -/
theorem isIllegal_iff (w : Word) : Machine.IsIllegal w ↔ ∃ e, decode w = .error e := by
  unfold Machine.IsIllegal
  cases h : decode w with
  | ok i => simp
  | error e => simp

end Sys2Proof
end

