-- ==== Sys2Proof/Laws/State.lean ====
section
/-! SUPPORT. One lemma per field per update of the state, each true by rfl, so that no later proof unfolds a record update. -/

namespace Sys2Proof.Machine


/-! ## `Block.setFlag` -/

@[simp] theorem Block.setFlag_x (b : Block) (f : Flag) : (b.setFlag f).x = b.x := rfl
@[simp] theorem Block.setFlag_arr (b : Block) (f : Flag) : (b.setFlag f).arr = b.arr := rfl
@[simp] theorem Block.setFlag_alen (b : Block) (f : Flag) : (b.setFlag f).alen = b.alen := rfl
@[simp] theorem Block.setFlag_fb (b : Block) (f : Flag) : (b.setFlag f).fb = b.fb := rfl
@[simp] theorem Block.setFlag_flen (b : Block) (f : Flag) : (b.setFlag f).flen = b.flen := rfl
@[simp] theorem Block.setFlag_off (b : Block) (f : Flag) : (b.setFlag f).off = b.off := rfl
@[simp] theorem Block.setFlag_rem (b : Block) (f : Flag) : (b.setFlag f).rem = b.rem := rfl
@[simp] theorem Block.setFlag_sum (b : Block) (f : Flag) : (b.setFlag f).sum = b.sum := rfl
@[simp] theorem Block.setFlag_lane (b : Block) (f : Flag) : (b.setFlag f).lane = b.lane := rfl
@[simp] theorem Block.setFlag_status (b : Block) (f : Flag) : (b.setFlag f).status = b.status ||| (1#8 <<< f.bit) := rfl

/-! ## `Block.writeReg` -/

@[simp] theorem Block.writeReg_x (b : Block) (i : Reg) (v : Word) : (b.writeReg i v).x = b.x.set i v := rfl
@[simp] theorem Block.writeReg_arr (b : Block) (i : Reg) (v : Word) : (b.writeReg i v).arr = b.arr := rfl
@[simp] theorem Block.writeReg_alen (b : Block) (i : Reg) (v : Word) : (b.writeReg i v).alen = b.alen := rfl
@[simp] theorem Block.writeReg_fb (b : Block) (i : Reg) (v : Word) : (b.writeReg i v).fb = b.fb := rfl
@[simp] theorem Block.writeReg_flen (b : Block) (i : Reg) (v : Word) : (b.writeReg i v).flen = b.flen := rfl
@[simp] theorem Block.writeReg_off (b : Block) (i : Reg) (v : Word) : (b.writeReg i v).off = b.off := rfl
@[simp] theorem Block.writeReg_rem (b : Block) (i : Reg) (v : Word) : (b.writeReg i v).rem = b.rem := rfl
@[simp] theorem Block.writeReg_sum (b : Block) (i : Reg) (v : Word) : (b.writeReg i v).sum = b.sum := rfl
@[simp] theorem Block.writeReg_lane (b : Block) (i : Reg) (v : Word) : (b.writeReg i v).lane = b.lane := rfl
@[simp] theorem Block.writeReg_status (b : Block) (i : Reg) (v : Word) : (b.writeReg i v).status = b.status := rfl

/-! ## `Block.writeArr` -/

@[simp] theorem Block.writeArr_x (b : Block) (s : List Byte) : (b.writeArr s).x = b.x := rfl
@[simp] theorem Block.writeArr_arr (b : Block) (s : List Byte) : (b.writeArr s).arr = Vector.ofFn fun i => s.getD i 0 := rfl
@[simp] theorem Block.writeArr_alen (b : Block) (s : List Byte) : (b.writeArr s).alen = BitVec.ofNat 5 s.length := rfl
@[simp] theorem Block.writeArr_fb (b : Block) (s : List Byte) : (b.writeArr s).fb = b.fb := rfl
@[simp] theorem Block.writeArr_flen (b : Block) (s : List Byte) : (b.writeArr s).flen = b.flen := rfl
@[simp] theorem Block.writeArr_off (b : Block) (s : List Byte) : (b.writeArr s).off = b.off := rfl
@[simp] theorem Block.writeArr_rem (b : Block) (s : List Byte) : (b.writeArr s).rem = b.rem := rfl
@[simp] theorem Block.writeArr_sum (b : Block) (s : List Byte) : (b.writeArr s).sum = b.sum := rfl
@[simp] theorem Block.writeArr_lane (b : Block) (s : List Byte) : (b.writeArr s).lane = b.lane := rfl
@[simp] theorem Block.writeArr_status (b : Block) (s : List Byte) : (b.writeArr s).status = b.status := rfl

/-! ## `Block.consume` -/

@[simp] theorem Block.consume_x (b : Block) (n : Nat) : (b.consume n).x = b.x := rfl
@[simp] theorem Block.consume_arr (b : Block) (n : Nat) : (b.consume n).arr = b.arr := rfl
@[simp] theorem Block.consume_alen (b : Block) (n : Nat) : (b.consume n).alen = b.alen := rfl
@[simp] theorem Block.consume_fb (b : Block) (n : Nat) : (b.consume n).fb = b.fb := rfl
@[simp] theorem Block.consume_flen (b : Block) (n : Nat) : (b.consume n).flen = b.flen := rfl
@[simp] theorem Block.consume_off (b : Block) (n : Nat) : (b.consume n).off = b.off + BitVec.ofNat 16 n := rfl
@[simp] theorem Block.consume_rem (b : Block) (n : Nat) : (b.consume n).rem = b.rem - BitVec.ofNat 16 n := rfl
@[simp] theorem Block.consume_sum (b : Block) (n : Nat) : (b.consume n).sum = b.sum := rfl
@[simp] theorem Block.consume_lane (b : Block) (n : Nat) : (b.consume n).lane = b.lane := rfl
@[simp] theorem Block.consume_status (b : Block) (n : Nat) : (b.consume n).status = b.status := rfl

/-! ## `Block.setAccumulator` -/

@[simp] theorem Block.setAccumulator_x (b : Block) (acc : Accumulator) : (b.setAccumulator acc).x = b.x := rfl
@[simp] theorem Block.setAccumulator_arr (b : Block) (acc : Accumulator) : (b.setAccumulator acc).arr = b.arr := rfl
@[simp] theorem Block.setAccumulator_alen (b : Block) (acc : Accumulator) : (b.setAccumulator acc).alen = b.alen := rfl
@[simp] theorem Block.setAccumulator_fb (b : Block) (acc : Accumulator) : (b.setAccumulator acc).fb = b.fb := rfl
@[simp] theorem Block.setAccumulator_flen (b : Block) (acc : Accumulator) : (b.setAccumulator acc).flen = b.flen := rfl
@[simp] theorem Block.setAccumulator_off (b : Block) (acc : Accumulator) : (b.setAccumulator acc).off = b.off := rfl
@[simp] theorem Block.setAccumulator_rem (b : Block) (acc : Accumulator) : (b.setAccumulator acc).rem = b.rem := rfl
@[simp] theorem Block.setAccumulator_sum (b : Block) (acc : Accumulator) : (b.setAccumulator acc).sum = acc.1 := rfl
@[simp] theorem Block.setAccumulator_lane (b : Block) (acc : Accumulator) : (b.setAccumulator acc).lane = acc.2 := rfl
@[simp] theorem Block.setAccumulator_status (b : Block) (acc : Accumulator) : (b.setAccumulator acc).status = b.status := rfl

/-! ## `State.answer` -/

@[simp] theorem State.answer_block (s : State) (r : HostResult) : (s.answer r).block = s.block := rfl
@[simp] theorem State.answer_frameCap (s : State) (r : HostResult) : (s.answer r).frameCap = s.frameCap := rfl
@[simp] theorem State.answer_pending (s : State) (r : HostResult) : (s.answer r).pending = s.pending := rfl
@[simp] theorem State.answer_results (s : State) (r : HostResult) : (s.answer r).results = s.results ++ [r] := rfl

/-! ## `State.doneWith` -/

@[simp] theorem State.doneWith_block (s : State) (b : Block) : (s.doneWith b).block = b := rfl
@[simp] theorem State.doneWith_frameCap (s : State) (b : Block) : (s.doneWith b).frameCap = s.frameCap := rfl
@[simp] theorem State.doneWith_pending (s : State) (b : Block) : (s.doneWith b).pending = s.pending := rfl
@[simp] theorem State.doneWith_results (s : State) (b : Block) : (s.doneWith b).results = s.results ++ [.completed .done] := rfl

/-! ## `State.onlySets` -/

@[simp] theorem State.onlySets_block (s : State) (k : Nat) (c : Code) : (s.onlySets k c).block = { s.block with status := s.block.status ||| (1#8 <<< k) } := rfl
@[simp] theorem State.onlySets_frameCap (s : State) (k : Nat) (c : Code) : (s.onlySets k c).frameCap = s.frameCap := rfl
@[simp] theorem State.onlySets_pending (s : State) (k : Nat) (c : Code) : (s.onlySets k c).pending = s.pending := rfl
@[simp] theorem State.onlySets_results (s : State) (k : Nat) (c : Code) : (s.onlySets k c).results = s.results ++ [.completed c] := rfl

/-! ## `takeException`, `hostRead`, `hostReset` -/

@[simp] theorem takeException_block (e : Exn) (s : State) : (takeException e s).block = s.block.setFlag e.flag := rfl
@[simp] theorem takeException_frameCap (e : Exn) (s : State) : (takeException e s).frameCap = s.frameCap := rfl
@[simp] theorem takeException_pending (e : Exn) (s : State) : (takeException e s).pending = s.pending := rfl
@[simp] theorem takeException_results (e : Exn) (s : State) : (takeException e s).results = s.results ++ [.completed e.code] := rfl
@[simp] theorem hostRead_block (t : Target) (s : State) : (hostRead t s).block = s.block := rfl
@[simp] theorem hostRead_frameCap (t : Target) (s : State) : (hostRead t s).frameCap = s.frameCap := rfl
@[simp] theorem hostRead_pending (t : Target) (s : State) : (hostRead t s).pending = s.pending := rfl
@[simp] theorem hostRead_results (t : Target) (s : State) : (hostRead t s).results = s.results ++ [s.block.readTarget t] := rfl
@[simp] theorem hostReset_block (s : State) : (hostReset s).block = Block.reset := rfl
@[simp] theorem hostReset_frameCap (s : State) : (hostReset s).frameCap = s.frameCap := rfl
@[simp] theorem hostReset_pending (s : State) : (hostReset s).pending = s.pending := rfl
@[simp] theorem hostReset_results (s : State) : (hostReset s).results = s.results := rfl

/-! ## The accumulator of an updated block -/

@[simp] theorem Block.accumulator_setAccumulator (b : Block) (acc : Accumulator) : (b.setAccumulator acc).accumulator = acc := rfl
@[simp] theorem Block.accumulator_writeReg (b : Block) (i : Reg) (v : Word) : (b.writeReg i v).accumulator = b.accumulator := rfl

/-! ## Reading a register after a write -/

theorem Block.readReg_writeReg_same (b : Block) (i : Reg) (v : Word) : (b.writeReg i v).readReg i = v := by
  simp [Block.readReg]

theorem Block.readReg_writeReg_other (b : Block) (i j : Reg) (v : Word) (h : i ≠ j) :
    (b.writeReg i v).readReg j = b.readReg j := by
  have : i.val ≠ j.val := fun e => h (Fin.ext e)
  simp [Block.readReg, this]

end Sys2Proof.Machine
end

