-- ==== Sys2Proof/Laws/Memory.lean ====
section
/-! SUPPORT. The frame store: a read after a write, the canonical form, and spans of a frame that holds its bytes. -/

namespace Sys2Proof.Machine

/-! ## Read after write -/

@[simp] theorem Memory.read_nil (a : Nat) : Memory.read [] a = none := rfl

theorem Memory.read_cons (c : Host.Cell) (m : Memory) (a : Nat) :
    Memory.read (c :: m) a = if c.1 = a then some c.2 else Memory.read m a := rfl

theorem Memory.read_write_same (m : Memory) (a : Nat) (b : Byte) : (m.write a b).read a = some b := by
  induction m with
  | nil => simp [Memory.write, Memory.read]
  | cons c rest ih =>
    simp only [Memory.write]
    split
    · simp [Memory.read]
    · split
      · simp [Memory.read]
      · rename_i h
        rw [Memory.read_cons, if_neg (fun e => h e.symm), ih]

theorem Memory.read_write_other (m : Memory) (a a' : Nat) (b : Byte) (h : a' ≠ a) :
    (m.write a b).read a' = m.read a' := by
  induction m with
  | nil => simp [Memory.write, Memory.read, Ne.symm h]
  | cons c rest ih =>
    simp only [Memory.write]
    split
    · rw [Memory.read_cons, if_neg (Ne.symm h)]
    · split
      · rename_i hc
        rw [Memory.read_cons, Memory.read_cons, if_neg (Ne.symm h), if_neg (hc ▸ Ne.symm h)]
      · rw [Memory.read_cons, Memory.read_cons, ih]

/-! ## The canonical form -/

theorem Memory.wf_nil : Memory.wf [] := List.Pairwise.nil

theorem Memory.mem_write (m : Memory) (a : Nat) (b : Byte) (c : Host.Cell) (h : c ∈ m.write a b) :
    c = (a, b) ∨ c ∈ m := by
  induction m with
  | nil => simpa [Memory.write] using h
  | cons d rest ih =>
    simp only [Memory.write] at h
    split at h
    · simpa using h
    · split at h
      · rcases List.mem_cons.mp h with h | h
        · exact .inl h
        · exact .inr (List.mem_cons_of_mem _ h)
      · rcases List.mem_cons.mp h with h | h
        · exact .inr (h ▸ List.mem_cons_self)
        · exact (ih h).imp_right (List.mem_cons_of_mem _)

/-- A write keeps the offsets strictly rising. -/
theorem Memory.wf_write (m : Memory) (a : Nat) (b : Byte) (h : m.wf) : (m.write a b).wf := by
  induction m with
  | nil => simp [Memory.write, Memory.wf]
  | cons c rest ih =>
    obtain ⟨hc, hrest⟩ := List.pairwise_cons.mp h
    simp only [Memory.write]
    split
    · rename_i ha
      refine List.pairwise_cons.mpr ⟨fun d hd => ?_, h⟩
      rcases List.mem_cons.mp hd with rfl | hd
      · exact ha
      · exact Nat.lt_trans ha (hc d hd)
    · split
      · rename_i ha
        exact List.pairwise_cons.mpr ⟨fun d hd => ha ▸ hc d hd, hrest⟩
      · refine List.pairwise_cons.mpr ⟨fun d hd => ?_, ih hrest⟩
        rcases Memory.mem_write rest a b d hd with rfl | hd
        · simp only; omega
        · exact hc d hd

/-- Two memories in canonical form that read the same at every offset are equal. -/
theorem Memory.eq_of_read_eq (m m' : Memory) (h : m.wf) (h' : m'.wf) (hr : ∀ a, m.read a = m'.read a) : m = m' := by
  have low : ∀ (c : Host.Cell) (r : Memory), Memory.wf (c :: r) → ∀ a, a < c.1 → Memory.read (c :: r) a = none := by
    intro c r hw a ha
    have key : ∀ (l : Memory), (∀ d ∈ l, a < d.1) → Memory.read l a = none := by
      intro l hl
      induction l with
      | nil => rfl
      | cons d l ih =>
        rw [Memory.read_cons, if_neg (Nat.ne_of_gt (hl d List.mem_cons_self))]
        exact ih fun e he => hl e (List.mem_cons_of_mem _ he)
    refine key _ fun d hd => ?_
    rcases List.mem_cons.mp hd with rfl | hd
    · exact ha
    · exact Nat.lt_trans ha ((List.pairwise_cons.mp hw).1 d hd)
  induction m generalizing m' with
  | nil =>
    cases m' with
    | nil => rfl
    | cons c r => have := hr c.1; simp [Memory.read] at this
  | cons c r ih =>
    cases m' with
    | nil => have := hr c.1; simp [Memory.read] at this
    | cons d r' =>
      have hcd : c.1 = d.1 := by
        rcases Nat.lt_trichotomy c.1 d.1 with hlt | heq | hgt
        · have := hr c.1; rw [low d r' h' _ hlt] at this; simp [Memory.read] at this
        · exact heq
        · have := hr d.1; rw [low c r h _ hgt] at this; simp [Memory.read] at this
      have hv : c.2 = d.2 := by have := hr c.1; simpa [Memory.read, hcd] using this
      have hc : c = d := Prod.ext hcd hv
      subst hc
      obtain ⟨hc1, hr1⟩ := List.pairwise_cons.mp h
      obtain ⟨hc2, hr2⟩ := List.pairwise_cons.mp h'
      congr 1
      refine ih r' hr1 hr2 fun a => ?_
      by_cases ha : c.1 = a
      · subst ha
        have none_of : ∀ (l : Memory), (∀ e ∈ l, c.1 < e.1) → Memory.read l c.1 = none := by
          intro l hl
          induction l with
          | nil => rfl
          | cons e l ih' =>
            rw [Memory.read_cons, if_neg (Nat.ne_of_gt (hl e List.mem_cons_self))]
            exact ih' fun e' he' => hl e' (List.mem_cons_of_mem _ he')
        rw [none_of r hc1, none_of r' hc2]
      · have := hr a
        rwa [Memory.read_cons, Memory.read_cons, if_neg ha, if_neg ha] at this

/-! ## A frame that holds its bytes -/

/-- Reading a memory whose offsets are `l`. -/
theorem Memory.read_isSome_iff (m : Memory) (a : Nat) : (m.read a).isSome ↔ a ∈ m.map Prod.fst := by
  induction m with
  | nil => simp
  | cons c rest ih =>
    rw [Memory.read_cons]
    by_cases h : c.1 = a
    · simp [h]
    · rw [if_neg h, ih]
      simp [Ne.symm h]

/-- The frame has a byte exactly at the offsets below FLEN (20_memory.md R40). -/
theorem Block.FrameOk.read_isSome {b : Block} (h : b.FrameOk) (a : Nat) :
    (b.fb.read a).isSome ↔ a < b.flen.toNat := by
  rw [Memory.read_isSome_iff, h, List.mem_range]

theorem Block.FrameOk.wf {b : Block} (h : b.FrameOk) : b.fb.wf := by
  have : List.Pairwise (· < ·) (b.fb.map Prod.fst) := h ▸ List.pairwise_lt_range
  exact List.pairwise_map.mp this

theorem Memory.write_append (m : Memory) (a : Nat) (b : Byte) (h : ∀ c ∈ m, c.1 < a) :
    m.write a b = m ++ [(a, b)] := by
  induction m with
  | nil => rfl
  | cons c rest ih =>
    have hc := h c List.mem_cons_self
    simp only [Memory.write]
    rw [if_neg (by omega), if_neg (by omega), ih fun d hd => h d (List.mem_cons_of_mem _ hd)]
    rfl

/-- Appending a byte at FLEN gives the frame with one byte more. -/
theorem Memory.write_frame (m : Memory) (n : Nat) (b : Byte) (h : m.map Prod.fst = List.range n) :
    (m.write n b).map Prod.fst = List.range (n + 1) := by
  rw [Memory.write_append, List.map_append, h, List.range_succ]
  · rfl
  · intro c hc
    have : c.1 ∈ m.map Prod.fst := List.mem_map_of_mem hc
    rw [h] at this
    exact List.mem_range.mp this

/-! ## Spans -/

/-- `MemRead` answers exactly the bytes at the offsets of its span. -/
theorem Memory.readSpan_eq_some_iff (m : Memory) (a n : Nat) (s : List Byte) :
    m.readSpan a n = some s ↔ s.length = n ∧ ∀ k, (h : k < s.length) → m.read (a + k) = some s[k] := by
  induction n generalizing a s with
  | zero =>
    simp only [Memory.readSpan, Option.some.injEq]
    constructor
    · rintro rfl; simp
    · rintro ⟨h, -⟩; exact (List.eq_nil_of_length_eq_zero h).symm
  | succ n ih =>
    constructor
    · intro h
      simp only [Memory.readSpan] at h
      split at h
      · rename_i b bs hb hbs
        obtain rfl := Option.some.inj h
        obtain ⟨hl, hk⟩ := (ih _ _).mp hbs
        refine ⟨by simp [hl], fun k hlt => ?_⟩
        cases k with
        | zero => simpa using hb
        | succ k =>
          have := hk k (by simpa using hlt)
          rw [Nat.add_assoc, Nat.add_comm 1 k] at this
          simpa using this
      · cases h
    · rintro ⟨hl, hk⟩
      cases s with
      | nil => cases hl
      | cons b bs =>
        have hb := hk 0 (by simp)
        have hbs : m.readSpan (a + 1) n = some bs := by
          refine (ih _ _).mpr ⟨by simpa using hl, fun k hlt => ?_⟩
          have := hk (k + 1) (by simpa using hlt)
          rw [Nat.add_assoc, Nat.add_comm 1 k]
          simpa using this
        simp only [Nat.add_zero] at hb
        simp [Memory.readSpan, hb, hbs]

theorem Memory.readSpan_length {m : Memory} {a n : Nat} {s : List Byte} (h : m.readSpan a n = some s) :
    s.length = n := ((Memory.readSpan_eq_some_iff m a n s).mp h).1

/-- A span that lies in the frame can be read. -/
theorem Block.FrameOk.readSpan {b : Block} (h : b.FrameOk) (a n : Nat) (hn : a + n ≤ b.flen.toNat) :
    ∃ s, b.fb.readSpan a n = some s ∧ s.length = n ∧ b.HoldsAt a s := by
  suffices ∃ s, b.fb.readSpan a n = some s by
    obtain ⟨s, hs⟩ := this
    obtain ⟨hl, hk⟩ := (Memory.readSpan_eq_some_iff _ _ _ _).mp hs
    exact ⟨s, hs, hl, hk⟩
  induction n generalizing a with
  | zero => exact ⟨[], rfl⟩
  | succ n ih =>
    obtain ⟨v, hv⟩ := Option.isSome_iff_exists.mp ((h.read_isSome a).mpr (by omega))
    obtain ⟨s, hs⟩ := ih (a + 1) (by omega)
    exact ⟨v :: s, by simp [Memory.readSpan, hv, hs]⟩

/-- A span of one, two or four bytes, byte by byte. -/
theorem Memory.readSpan_succ {m : Memory} {a n : Nat} {s : List Byte} (h : m.readSpan a (n + 1) = some s) :
    ∃ b bs, s = b :: bs ∧ m.read a = some b ∧ m.readSpan (a + 1) n = some bs := by
  simp only [Memory.readSpan] at h
  split at h
  · rename_i b bs hb hbs
    exact ⟨b, bs, (Option.some.inj h).symm, hb, hbs⟩
  · cases h

end Sys2Proof.Machine
end

