-- ==== Sys2Proof/Laws/Execute.lean ====
section
/-! SUPPORT. What the shared operations can do, said once: the bounds checks, the wrapper that runs a command, the rule of each command, and the step. -/

namespace Sys2Proof.Machine

/-! ## Flags -/

theorem Block.active_eq (b : Block) : b.active = b.status.getLsbD 7 := rfl

theorem takeException_oob (s : State) : takeException .outOfBounds s = s.onlySets 0 .oob := rfl

theorem takeException_ill (s : State) : takeException .illegalCommand s = s.onlySets 1 .ill := rfl

theorem takeException_seq (s : State) : takeException .sequenceError s = s.onlySets 2 .seq := rfl

/-! ## The bounds checks -/

/-- All a read of a span can come to. -/
theorem Block.withSpan_done {b b' : Block} {a n : Nat} {k : List Byte → Result} (h : b.withSpan a n k = .done b') :
    ∃ s, b.fb.readSpan a n = some s ∧ k s = .done b' := by
  unfold Block.withSpan at h
  split at h
  · exact ⟨_, ‹_›, h⟩
  · cases h

/-- All a cursor read can come to when it completes. -/
theorem Block.readWindow_done {b b' : Block} {n : Nat} {f : List Byte → Block} (h : b.readWindow n f = .done b') :
    n ≤ b.rem.toNat ∧ ∃ s, b.fb.readSpan b.off.toNat n = some s ∧ b' = (f s).consume n := by
  unfold Block.readWindow Block.checkWindow at h
  split at h
  · obtain ⟨s, hs, hk⟩ := Block.withSpan_done h
    exact ⟨‹_›, s, hs, (Result.done.inj hk).symm⟩
  · cases h

/-- All a region read can come to when it completes. -/
theorem Block.readRegion_done {b b' : Block} {a l : Nat} {f : List Byte → Block} (h : b.readRegion a l f = .done b') :
    a + l ≤ b.flen.toNat ∧ ∃ s, b.fb.readSpan a l = some s ∧ b' = f s := by
  unfold Block.readRegion at h
  split at h
  · obtain ⟨s, hs, hk⟩ := Block.withSpan_done h
    exact ⟨‹_›, s, hs, (Result.done.inj hk).symm⟩
  · cases h

theorem Block.withSpan_raise {b : Block} {a n : Nat} {k : List Byte → Result} {e : Exn}
    (hk : ∀ s, k s ≠ .raise e) : b.withSpan a n k ≠ .raise e := by
  unfold Block.withSpan
  split
  · exact hk _
  · exact fun h => nomatch h

/-- A cursor read raises OutOfBounds exactly where the window check fails. -/
theorem Block.readWindow_raise {b : Block} {n : Nat} {f : List Byte → Block} {e : Exn} :
    b.readWindow n f = .raise e ↔ b.rem.toNat < n ∧ e = .outOfBounds := by
  unfold Block.readWindow Block.checkWindow
  split
  · constructor
    · exact fun h => absurd h (Block.withSpan_raise fun s => nofun)
    · rintro ⟨h, -⟩; omega
  · constructor
    · intro h; exact ⟨by omega, (Result.raise.inj h).symm⟩
    · rintro ⟨-, rfl⟩; rfl

/-- A region read raises OutOfBounds exactly where the region check fails. -/
theorem Block.readRegion_raise {b : Block} {a l : Nat} {f : List Byte → Block} {e : Exn} :
    b.readRegion a l f = .raise e ↔ b.flen.toNat < a + l ∧ e = .outOfBounds := by
  unfold Block.readRegion
  split
  · constructor
    · exact fun h => absurd h (Block.withSpan_raise fun s => nofun)
    · rintro ⟨h, -⟩; omega
  · constructor
    · intro h; exact ⟨by omega, (Result.raise.inj h).symm⟩
    · rintro ⟨-, rfl⟩; rfl

/-- A cursor read that passes its check in a frame that holds its bytes. -/
theorem Block.readWindow_eq {b : Block} {n : Nat} {f : List Byte → Block} {s : List Byte}
    (hn : n ≤ b.rem.toNat) (hs : b.fb.readSpan b.off.toNat n = some s) :
    b.readWindow n f = .done ((f s).consume n) := by
  simp [Block.readWindow, Block.checkWindow, Block.withSpan, hn, hs]

/-- A region read that passes its check in a frame that holds its bytes. -/
theorem Block.readRegion_eq {b : Block} {a l : Nat} {f : List Byte → Block} {s : List Byte}
    (hn : a + l ≤ b.flen.toNat) (hs : b.fb.readSpan a l = some s) :
    b.readRegion a l f = .done (f s) := by
  simp [Block.readRegion, Block.withSpan, hn, hs]

/-- The cursor after `n` bytes are consumed, written with naturals. -/
theorem Block.off_add_eq (b : Block) (n : Nat) :
    b.off + BitVec.ofNat 16 n = BitVec.ofNat 16 (b.off.toNat + n) := by
  apply BitVec.eq_of_toNat_eq
  simp [BitVec.toNat_add]

theorem Block.rem_sub_eq {b : Block} {n : Nat} (hn : n ≤ b.rem.toNat) :
    b.rem - BitVec.ofNat 16 n = BitVec.ofNat 16 (b.rem.toNat - n) := by
  apply BitVec.eq_of_toNat_eq
  have := b.rem.isLt
  simp only [BitVec.toNat_sub, BitVec.toNat_ofNat]
  omega

/-! ## The rule of each command -/

/-- The rule that the wrapper runs for each command, as its meaning in Machine/ gives it. -/
def ruleOf (i : Instr) (b : Block) : Result :=
  match i with
  | .nop => .done b
  | .openCall => .done ({ b with off := 0, rem := b.flen }.setFlag .act)
  | .closeCall => .done Block.reset
  | .li rd imm16 => .done (b.writeReg rd (zext32 imm16))
  | .rdc rd csr => .done (b.writeReg rd (b.readCsr csr))
  | .ext rd rs1 lsb width => .done (b.writeReg rd (bitField (b.readReg rs1) lsb.toNat width.toNat))
  | .rdu8 rd => b.readField 1 rd
  | .rdu16 rd => b.readField 2 rd
  | .rdu32 rd => b.readField 4 rd
  | .rda n => b.readWindow n.toNat fun bytes => b.writeArr bytes
  | .skip n => b.checkWindow n.toNat (.done (b.consume n.toNat))
  | .limit n => b.checkWindow n.toNat (.done { b with rem := n })
  | .ckclr => .done (b.setAccumulator (0, 0))
  | .ckadd rs1 rs2 =>
    b.readRegion (b.regionStart rs1) (b.regionLength rs2) fun bytes => b.setAccumulator (ckFeed b.accumulator bytes)
  | .ckget rd => .done (b.writeReg rd (checksumOf b.sum))
  | .ckvfy rd => .done (b.writeReg rd (if b.sum = 0xFFFF then 1 else 0))
  | .cksum rd rs1 rs2 =>
    b.readRegion (b.regionStart rs1) (b.regionLength rs2) fun bytes =>
      (b.setAccumulator (ckFeed (0, 0) bytes)).writeReg rd (checksumOf (ckFeed (0, 0) bytes).1)

/-- Every meaning is its rule inside the wrapper. -/
theorem exec_eq_runCommand (i : Instr) (s : State) : exec i s = runCommand i (ruleOf i) s := by
  cases i <;> rfl

/-- All `exec` can do when it answers a next state (42_frame_and_register_control.md R100). -/
theorem exec_cases {i : Instr} {s t : State} (h : exec i s = .next t) :
    (i.wellFormed = false ∧ t = s.onlySets 1 .ill) ∨
    (i.wellFormed = true ∧ admitted i.op s.block.active = false ∧ t = s.onlySets 2 .seq) ∨
    (i.wellFormed = true ∧ admitted i.op s.block.active = true ∧
      ((∃ b, ruleOf i s.block = .done b ∧ t = s.doneWith b) ∨
       (∃ e, ruleOf i s.block = .raise e ∧ t = takeException e s))) := by
  rw [exec_eq_runCommand] at h
  unfold runCommand at h
  split at h
  · split at h
    · refine .inr (.inr ⟨‹_›, ‹_›, ?_⟩)
      cases hr : ruleOf i s.block with
      | done b => rw [hr] at h; cases h; exact .inl ⟨b, rfl, rfl⟩
      | raise e => rw [hr] at h; cases h; exact .inr ⟨e, rfl, rfl⟩
      | stop f => rw [hr] at h; cases h
    · cases h
      exact .inr (.inl ⟨‹_›, Bool.eq_false_iff.mpr ‹_›, rfl⟩)
  · cases h
    exact .inl ⟨Bool.eq_false_iff.mpr ‹_›, rfl⟩

/-- An admitted command whose rule makes its writes. -/
theorem exec_of_done {i : Instr} {s : State} {b : Block} (hw : i.wellFormed = true)
    (ha : admitted i.op s.block.active = true) (hr : ruleOf i s.block = .done b) :
    exec i s = .next (s.doneWith b) := by
  rw [exec_eq_runCommand, runCommand, if_pos hw, if_pos ha, hr]; rfl

/-- An admitted command whose rule raises an exception. -/
theorem exec_of_raise {i : Instr} {s : State} {e : Exn} (hw : i.wellFormed = true)
    (ha : admitted i.op s.block.active = true) (hr : ruleOf i s.block = .raise e) :
    exec i s = .next (takeException e s) := by
  rw [exec_eq_runCommand, runCommand, if_pos hw, if_pos ha, hr]; rfl

/-- A command its mode does not admit. -/
theorem exec_of_not_admitted {i : Instr} {s : State} (hw : i.wellFormed = true)
    (ha : admitted i.op s.block.active = false) : exec i s = .next (s.onlySets 2 .seq) := by
  rw [exec_eq_runCommand, runCommand, if_pos hw, if_neg (by simp [ha])]; rfl

/-- Admission in ACTIVE (R101). -/
theorem admitted_active (i : Instr) : admitted i.op true = true ↔ i ≠ .openCall := by
  cases i <;> simp [Instr.op, admitted]

/-- Admission in IDLE (R101). -/
theorem admitted_idle (i : Instr) : admitted i.op false = true ↔ i = .nop ∨ i = .openCall ∨ i = .closeCall := by
  cases i <;> simp [Instr.op, admitted]

/-! ## The step -/

/-- All a step can be. -/
theorem step_cases (s : State) :
    (s.pending = [] ∧ step s = .next s) ∨
    (∃ a rest, s.pending = a :: rest ∧ step s = perform a { s with pending := rest }) := by
  cases h : s.pending with
  | nil => exact .inl ⟨rfl, by simp [step, State.nextAction, h]⟩
  | cons a rest => exact .inr ⟨a, rest, rfl, by simp [step, State.nextAction, h]⟩

theorem step_of_pending {s : State} {a : HostAction} {rest : List HostAction} (h : s.pending = a :: rest) :
    step s = perform a { s with pending := rest } := by
  simp [step, State.nextAction, h]

/-- All HostCommand can be (R100). -/
theorem hostCommand_cases (w : Word) (s : State) :
    (IsIllegal w ∧ hostCommand w s = .next (s.onlySets 1 .ill)) ∨
    (∃ i, decode w = .ok i ∧ hostCommand w s = exec i s) := by
  unfold hostCommand
  cases h : decode w with
  | ok i => exact .inr ⟨i, rfl, rfl⟩
  | error e => exact .inl ⟨(isIllegal_iff w).mpr ⟨e, h⟩, rfl⟩

/-- All HostPush can be (20_memory.md R43). -/
theorem hostPush_cases (b : Byte) (s : State) :
    (s.block.active = false ∧ s.block.flen.toNat < s.frameCap ∧
      hostPush b s = { s with
        block := { s.block with fb := s.block.fb.write s.block.flen.toNat b, flen := s.block.flen + 1 }
        results := s.results ++ [.accepted] }) ∨
    (¬(s.block.active = false ∧ s.block.flen.toNat < s.frameCap) ∧
      hostPush b s = { s with block := s.block.setFlag .wrerr, results := s.results ++ [.refused] }) := by
  unfold hostPush
  split
  · rename_i h
    simp only [Bool.and_eq_true, Bool.not_eq_true', decide_eq_true_eq] at h
    exact .inl ⟨h.1, h.2, rfl⟩
  · rename_i h
    simp only [Bool.and_eq_true, Bool.not_eq_true', decide_eq_true_eq] at h
    exact .inr ⟨h, rfl⟩

end Sys2Proof.Machine
end

