-- ==== Sys2Proof/Laws/PerInstr.lean ====
section
/-! SUPPORT. Facts about every instruction as syntax, one lemma per constructor. -/

namespace Sys2Proof.Laws

/-- The word of an instruction has its row's opcode and a 0 in every bit its row's mask fixes to 0
(30_encoding.md R55, R57, R59), whatever its operands. -/
def FixedBits.Statement (i : Instr) : Prop :=
  opField (encode i) = i.op.code ∧ encode i &&& i.op.format.mask = i.op.matchWord

theorem fixedBits_of_assemble {i : Instr} (rd rs1 : Reg) (low : Half) (he : encode i = assemble i.op.code rd rs1 low)
    (hd : BitVec.ofFin (w := 4) rd &&& i.op.format.maskRd = 0)
    (hs : BitVec.ofFin (w := 4) rs1 &&& i.op.format.maskRs1 = 0) (hl : low &&& i.op.format.maskLow = 0) :
    FixedBits.Statement i := by
  refine ⟨by rw [he, opField_assemble], ?_⟩
  rw [he]
  exact (assemble_fits_iff _ _ _ _ _ _).mpr ⟨rfl, hd, hs, hl⟩

theorem FixedBits.nop : FixedBits.Statement .nop :=
  fixedBits_of_assemble 0 0 0 rfl (ofFin_zero_and _) (ofFin_zero_and _) BitVec.zero_and

theorem FixedBits.openCall : FixedBits.Statement .openCall :=
  fixedBits_of_assemble 0 0 0 rfl (ofFin_zero_and _) (ofFin_zero_and _) BitVec.zero_and

theorem FixedBits.closeCall : FixedBits.Statement .closeCall :=
  fixedBits_of_assemble 0 0 0 rfl (ofFin_zero_and _) (ofFin_zero_and _) BitVec.zero_and

theorem FixedBits.li (rd : Reg) (imm16 : Half) : FixedBits.Statement (.li rd imm16) :=
  fixedBits_of_assemble rd 0 imm16 rfl BitVec.and_zero (ofFin_zero_and _) BitVec.and_zero

theorem FixedBits.rdc (rd : Reg) (csr : Csr) : FixedBits.Statement (.rdc rd csr) :=
  fixedBits_of_assemble rd 0 csr.number rfl BitVec.and_zero (ofFin_zero_and _) BitVec.and_zero

theorem FixedBits.ext (rd rs1 : Reg) (lsb : BitVec 5) (width : BitVec 6) :
    FixedBits.Statement (.ext rd rs1 lsb width) :=
  fixedBits_of_assemble rd rs1 (lowField lsb width) rfl BitVec.and_zero BitVec.and_zero (lowField_and lsb width)

theorem FixedBits.rdu8 (rd : Reg) : FixedBits.Statement (.rdu8 rd) :=
  fixedBits_of_assemble rd 0 0 rfl BitVec.and_zero (ofFin_zero_and _) BitVec.zero_and

theorem FixedBits.rdu16 (rd : Reg) : FixedBits.Statement (.rdu16 rd) :=
  fixedBits_of_assemble rd 0 0 rfl BitVec.and_zero (ofFin_zero_and _) BitVec.zero_and

theorem FixedBits.rdu32 (rd : Reg) : FixedBits.Statement (.rdu32 rd) :=
  fixedBits_of_assemble rd 0 0 rfl BitVec.and_zero (ofFin_zero_and _) BitVec.zero_and

theorem FixedBits.rda (n : Half) : FixedBits.Statement (.rda n) :=
  fixedBits_of_assemble 0 0 n rfl (ofFin_zero_and _) (ofFin_zero_and _) BitVec.and_zero

theorem FixedBits.skip (n : Half) : FixedBits.Statement (.skip n) :=
  fixedBits_of_assemble 0 0 n rfl (ofFin_zero_and _) (ofFin_zero_and _) BitVec.and_zero

theorem FixedBits.limit (n : Half) : FixedBits.Statement (.limit n) :=
  fixedBits_of_assemble 0 0 n rfl (ofFin_zero_and _) (ofFin_zero_and _) BitVec.and_zero

theorem FixedBits.ckclr : FixedBits.Statement .ckclr :=
  fixedBits_of_assemble 0 0 0 rfl (ofFin_zero_and _) (ofFin_zero_and _) BitVec.zero_and

theorem FixedBits.ckadd (rs1 rs2 : Reg) : FixedBits.Statement (.ckadd rs1 rs2) :=
  fixedBits_of_assemble 0 rs1 (lowRs2 rs2) rfl (ofFin_zero_and _) BitVec.and_zero (lowRs2_and rs2)

theorem FixedBits.ckget (rd : Reg) : FixedBits.Statement (.ckget rd) :=
  fixedBits_of_assemble rd 0 0 rfl BitVec.and_zero (ofFin_zero_and _) BitVec.zero_and

theorem FixedBits.ckvfy (rd : Reg) : FixedBits.Statement (.ckvfy rd) :=
  fixedBits_of_assemble rd 0 0 rfl BitVec.and_zero (ofFin_zero_and _) BitVec.zero_and

theorem FixedBits.cksum (rd rs1 rs2 : Reg) : FixedBits.Statement (.cksum rd rs1 rs2) :=
  fixedBits_of_assemble rd rs1 (lowRs2 rs2) rfl BitVec.and_zero BitVec.and_zero (lowRs2_and rs2)

end Sys2Proof.Laws
end

