-- ==== Sys2Proof/Laws/Run.lean ====
section
/-! SUPPORT. Runs of the machine as the host composes them, one step at a time. -/

namespace Sys2Proof.Machine

theorem run_zero (s : State) : Host.Core.run Sys2Proof.core 0 s = .next s := rfl

/-- A run of any machine whose first step has a next state goes on from it. -/
theorem coreRun_succ_of_next (M : Host.Core) {s u : M.State} (k : Nat) (h : M.step s = .next u) :
    M.run (k + 1) s = M.run k u := by
  simp only [Host.Core.run, h]

/-- A run of any machine that ends in a next state has taken its first step. -/
theorem coreRun_succ_eq_next (M : Host.Core) {s t : M.State} {k : Nat} (h : M.run (k + 1) s = .next t) :
    ∃ u : M.State, M.step s = .next u ∧ M.run k u = .next t := by
  simp only [Host.Core.run] at h
  cases hs : M.step s with
  | next u => rw [hs] at h; exact ⟨u, rfl, h⟩
  | fault r => rw [hs] at h; cases h
  | refused r => rw [hs] at h; cases h

/-- A run whose first step has a next state goes on from it. -/
theorem run_succ_of_next {s u : State} (k : Nat) (h : step s = .next u) :
    Host.Core.run Sys2Proof.core (k + 1) s = Host.Core.run Sys2Proof.core k u :=
  coreRun_succ_of_next Sys2Proof.core k h

/-- A run that ends in a next state has taken its first step. -/
theorem run_succ_eq_next {s t : State} {k : Nat} (h : Host.Core.run Sys2Proof.core (k + 1) s = .next t) :
    ∃ u : State, step s = .next u ∧ Host.Core.run Sys2Proof.core k u = .next t :=
  coreRun_succ_eq_next Sys2Proof.core h

end Sys2Proof.Machine
end

