-- ==== Sys2Proof/Tests/Slice0.lean ====
section
/-! SUPPORT. Tests of the model against the encodings of 30_encoding.md R55, R57, R65 and the vectors of 95_test_vectors.md, and a witness for the hypotheses of every statement. -/

namespace Sys2Proof.Tests

open Sys2Proof Sys2Proof.Machine

/-! ## Small states -/

/-- A block in IDLE with a frame pushed. -/
def idleBlock (bytes : List Byte) : Block :=
  { Block.reset with fb := (List.range bytes.length).zip bytes, flen := BitVec.ofNat 16 bytes.length }

/-- A block in ACTIVE with a frame and a cursor. -/
def activeBlock (bytes : List Byte) (off rem : Half) : Block :=
  { idleBlock bytes with off := off, rem := rem, status := 0x80 }

/-- The state of a block, at the default parameter. -/
def on (b : Block) : State := { State.reset with block := b }

/-- A block with some registers set. -/
def withRegs (b : Block) (l : List (Reg × Word)) : Block :=
  { b with x := l.foldl (fun x p => x.set p.1 p.2) b.x }

/-- A state with host actions to come. -/
def given (s : State) (l : List HostAction) : State := { s with pending := l }

/-- What a test looks at in the block after an outcome, and what was returned to the host. -/
def seen {α : Type} (o : Host.Outcome State Fault Refusal) (f : Block → α) : Option (α × List HostResult) :=
  match o with
  | .next t => some (f t.block, t.results)
  | .fault _ => none
  | .refused _ => none

/-- DONE returned to the host. -/
def done : List HostResult := [.completed .done]

/-- OOB returned to the host. -/
def oob : List HostResult := [.completed .oob]

/-- ILL returned to the host. -/
def ill : List HostResult := [.completed .ill]

/-- SEQ returned to the host. -/
def seq : List HostResult := [.completed .seq]

/-- Frame P (95_test_vectors.md 2.3). -/
def frameP : List Byte := [0x45, 0x00, 0x00, 0x1c, 0xab, 0xcd]

/-- Frame H (95_test_vectors.md V-CK-1a). -/
def frameH : List Byte :=
  [0x45, 0x00, 0x00, 0x73, 0x00, 0x00, 0x40, 0x00, 0x40, 0x11, 0xb8, 0x61, 0xc0, 0xa8, 0x00, 0x01, 0xc0, 0xa8, 0x00, 0xc7]

/-- The frame of V-RA-1. -/
def frameA : List Byte :=
  [0x20, 0x01, 0x0d, 0xb8, 0, 0, 0, 0, 0, 0, 0, 0, 0, 0, 0, 0x01] ++ [0xc0, 0xa8, 0x00, 0x01] ++
  [0xaa, 0xbb, 0xcc, 0xdd, 0xee, 0xff] ++ [0x07]

/-- The parts of the invariant, each decidable on a concrete state. -/
abbrev InvParts (s : State) : Prop :=
  s.block.off.toNat + s.block.rem.toNat ≤ s.block.flen.toNat ∧ s.block.flen.toNat ≤ s.frameCap ∧
  s.block.fb.map Prod.fst = List.range s.block.flen.toNat ∧
  (s.block.status.getLsbD 7 = false →
    s.block.off = 0 ∧ s.block.rem = 0 ∧ (∀ i : Reg, s.block.x[i] = 0) ∧ (∀ i : Fin 16, s.block.arr[i] = 0) ∧
    s.block.alen = 0 ∧ s.block.sum = 0 ∧ s.block.lane = 0 ∧ s.block.status.getLsbD 0 = false) ∧
  s.block.alen.toNat ≤ 16 ∧ (∀ i : Fin 16, s.block.alen.toNat ≤ i.val → s.block.arr[i] = 0) ∧
  (∀ k : Fin 3, s.block.status.getLsbD (4 + k.val) = false) ∧ Config.ValidFrameCap s.frameCap

/-- The parts together are the invariant. -/
theorem inv_of_parts {s : State} (h : InvParts s) : Inv s :=
  ⟨⟨h.1, h.2.1, h.2.2.1,
    fun hm => have g := h.2.2.2.1 hm
      ⟨g.1, g.2.1, g.2.2.1, g.2.2.2.1, g.2.2.2.2.1, g.2.2.2.2.2.1, g.2.2.2.2.2.2.1, g.2.2.2.2.2.2.2⟩,
    h.2.2.2.2.1, h.2.2.2.2.2.1, h.2.2.2.2.2.2.1⟩, h.2.2.2.2.2.2.2⟩

/-- Frame P just opened. -/
def openedP : State := on (activeBlock frameP 0 6)

theorem inv_openedP : Inv openedP := inv_of_parts (by decide)

/-! ## Decoding: every row, by words written from R55 and R57 -/

theorem test_decode_nop : decode 0x00000000 = .ok .nop := by decide
theorem test_decode_open : decode 0x01000000 = .ok .openCall := by decide
theorem test_decode_close : decode 0x02000000 = .ok .closeCall := by decide
theorem test_decode_li : decode 0b00010000_1111_0000_1111111111111111#32 = .ok (.li 15 65535) := by decide
theorem test_decode_rdc : decode 0b00010001_0111_0000_0000000000000110#32 = .ok (.rdc 7 .alen) := by decide
theorem test_decode_ext : decode 0b00010010_0010_0001_000_11100_00_000100#32 = .ok (.ext 2 1 28 4) := by decide
theorem test_decode_ext_width32 : decode 0x12990020 = .ok (.ext 9 9 0 32) := by decide
theorem test_decode_rdu8 : decode 0b00100000_0001_0000_0000000000000000#32 = .ok (.rdu8 1) := by decide
theorem test_decode_rdu16 : decode 0x21200000 = .ok (.rdu16 2) := by decide
theorem test_decode_rdu32 : decode 0x22A00000 = .ok (.rdu32 10) := by decide
theorem test_decode_rda : decode 0b00100011_0000_0000_0000000000010000#32 = .ok (.rda 16) := by decide
theorem test_decode_skip : decode 0x2400FFFF = .ok (.skip 65535) := by decide
theorem test_decode_limit : decode 0x25000014 = .ok (.limit 20) := by decide
theorem test_decode_ckclr : decode 0x30000000 = .ok .ckclr := by decide
theorem test_decode_ckadd : decode 0b00110001_0000_0001_0010_000000000000#32 = .ok (.ckadd 1 2) := by decide
theorem test_decode_ckget : decode 0x32600000 = .ok (.ckget 6) := by decide
theorem test_decode_ckvfy : decode 0x33600000 = .ok (.ckvfy 6) := by decide
theorem test_decode_cksum : decode 0b00110100_0101_0001_0010_000000000000#32 = .ok (.cksum 5 1 2) := by decide

/-- Every control register number (10_state.md R22). -/
theorem test_decode_csr_numbers :
    [0x11400000, 0x11500001, 0x11600002, 0x11700003, 0x11800004, 0x11900005, 0x11A00006].map decode =
      [.ok (.rdc 4 .status), .ok (.rdc 5 .off), .ok (.rdc 6 .rem), .ok (.rdc 7 .flen), .ok (.rdc 8 .sum),
       .ok (.rdc 9 .lane), .ok (.rdc 10 .alen)] := by decide

/-- R60: reserved opcodes, at the ends of their ranges. -/
theorem test_decode_reserved :
    ([0x03000000#32, 0x0F000000, 0x13000000, 0x1F000000, 0x26000000, 0x2F000000, 0x35000000, 0xFFFFFFFF] : List Word).map decode =
      List.replicate 8 (.error .reservedOpcode) := by decide

/-- R59: a stray bit in each format. -/
theorem test_decode_stray :
    ([0x01000001#32, 0x20310000, 0x10110000, 0x23100001, 0x31112000, 0x34512001, 0x12212404, 0x12210444] : List Word).map decode =
      List.replicate 8 (.error .strayBits) := by decide

/-- R61: operands out of range. -/
theorem test_decode_range :
    ([0x23000000#32, 0x23000011, 0x11100007, 0x12210400, 0x12211D04, 0x12210021] : List Word).map decode =
      List.replicate 6 (.error .operandRange) := by decide

theorem test_tableWord : decodeTableWord 32 0x34512000 = some (.cksum 5 1 2) := by decide
theorem test_withFetchWord_runs :
    step (State.reset.withFetchWord 32 0x01000000) = exec .openCall State.reset := rfl

/-! ## WellFormed: an ill-formed term for each check -/

theorem test_rda_zero_is_ill_formed : (Instr.rda 0).wellFormed = false := by decide
theorem test_rda_seventeen_is_ill_formed : (Instr.rda 17).wellFormed = false := by decide
theorem test_ext_width_zero_is_ill_formed : (Instr.ext 2 1 4 0).wellFormed = false := by decide
theorem test_ext_width_33_is_ill_formed : (Instr.ext 2 1 0 33).wellFormed = false := by decide
theorem test_ext_past_the_top_is_ill_formed : (Instr.ext 2 1 29 4).wellFormed = false := by decide
theorem test_ext_to_the_top_is_well_formed : (Instr.ext 2 1 28 4).wellFormed = true := by decide

/-! ## Instructions, one step each -/

/-- V-CT-1. -/
theorem test_nop_in_idle : seen (exec .nop State.reset) id = some (Block.reset, done) := by decide

/-- 95_test_vectors.md 2.3, the state after `OPEN`. -/
theorem test_open_frameP :
    seen (exec .openCall (on (idleBlock frameP))) id = some (activeBlock frameP 0 6, done) := by decide

/-- V-CT-2. -/
theorem test_open_twice :
    seen (exec .openCall openedP) (fun b => (b.status, b.off, b.rem)) = some ((0x84, 0, 6), seq) := by decide

/-- V-CT-8. -/
theorem test_close_discards_a_frame :
    seen (exec .closeCall (on (idleBlock [0xaa, 0xbb, 0xcc]))) id = some (Block.reset, done) := by decide

/-- V-CT-7. -/
theorem test_li_largest : seen (exec (.li 15 65535) openedP) (fun b => b.x[15]) = some (0x0000FFFF, done) := by decide

/-- V-CT-1. -/
theorem test_li_in_idle : seen (exec (.li 1 5) State.reset) (fun b => (b.x[1], b.status)) = some ((0, 0x04), seq) := by decide

/-- V-CT-6. -/
theorem test_rdc_sum :
    seen (exec (.rdc 8 .sum) (on { activeBlock frameP 6 0 with sum := 0x4500, lane := 1 })) (fun b => b.x[8]) =
      some (0x00004500, done) := by decide

/-- V-CT-5. -/
theorem test_rdc_status :
    seen (exec (.rdc 2 .status) (on { activeBlock [1] 1 0 with status := 0x8F })) (fun b => b.x[2]) =
      some (0x0000008F, done) := by decide

/-- V-EX-2b. -/
theorem test_ext_traffic_class :
    seen (exec (.ext 3 1 20 8) (on (withRegs (activeBlock frameP 0 6) [(1, 0x6ABCDEF0)]))) (fun b => b.x[3]) =
      some (0x000000AB, done) := by decide

/-- V-EX-4c: the source is the destination. -/
theorem test_ext_in_place :
    seen (exec (.ext 10 10 0 1) (on (withRegs (activeBlock frameP 0 6) [(10, 0x80000001)]))) (fun b => b.x[10]) =
      some (1, done) := by decide

/-- V-RD-1, 5. -/
theorem test_rdu8_last_byte :
    seen (exec (.rdu8 4) (on (activeBlock frameP 5 1))) (fun b => (b.x[4], b.off, b.rem)) =
      some ((0x000000CD, 6, 0), done) := by decide

/-- V-RD-1, 6. -/
theorem test_rdu8_past_the_end :
    seen (exec (.rdu8 5) (on (activeBlock frameP 6 0))) (fun b => (b.x[5], b.off, b.status)) =
      some ((0, 6, 0x81), oob) := by decide

/-- V-RD-1, 3. -/
theorem test_rdu16_odd_offset :
    seen (exec (.rdu16 3) (on (activeBlock frameP 3 3))) (fun b => (b.x[3], b.off, b.rem)) =
      some ((0x00001CAB, 5, 1), done) := by decide

/-- V-RD-1, 4: the one byte left is not read. -/
theorem test_rdu16_one_byte_left :
    seen (exec (.rdu16 4) (on (activeBlock frameP 5 1))) (fun b => (b.x[4], b.off, b.rem, b.status)) =
      some ((0, 5, 1, 0x81), oob) := by decide

/-- V-RD-3. -/
theorem test_rdu32_top_bit :
    seen (exec (.rdu32 2) (on (activeBlock [0x01, 0x80, 0x00, 0x00, 0x01, 0xff] 1 5))) (fun b => (b.x[2], b.off, b.rem)) =
      some ((0x80000001, 5, 1), done) := by decide

/-- V-RD-2, 2: the destination keeps its value. -/
theorem test_rdu32_too_few :
    seen (exec (.rdu32 1) (on (withRegs (activeBlock frameP 4 2) [(1, 0x4500001C)]))) (fun b => (b.x[1], b.off, b.rem)) =
      some ((0x4500001C, 4, 2), oob) := by decide

/-- V-RA-1, 2: the tail of a longer array is wiped. -/
theorem test_rda_wipes_the_tail :
    seen (exec (.rda 4) (on { activeBlock frameA 16 11 with arr := Vector.replicate 16 0xee, alen := 16 }))
        (fun b => (b.arr.toList, b.alen, b.off, b.rem)) =
      some (([0xc0, 0xa8, 0x00, 0x01, 0, 0, 0, 0, 0, 0, 0, 0, 0, 0, 0, 0], 4, 20, 7), done) := by decide

/-- V-CT-4: an illegal word in ACTIVE with REM 0 is ILL, not OOB. -/
theorem test_rda_seventeen_is_ill :
    seen (step (given (on (activeBlock frameP 6 0)) [.command 0x23000011])) (fun b => b.status) = some (0x82, ill) := by decide

/-- V-SK-1. -/
theorem test_skip_four : seen (exec (.skip 4) openedP) id = some (activeBlock frameP 4 2, done) := by decide

/-- V-SK-1. -/
theorem test_skip_too_many :
    seen (exec (.skip 3) (on (activeBlock frameP 4 2))) (fun b => (b.off, b.rem, b.status)) =
      some ((4, 2, 0x81), oob) := by decide

/-- V-LM-1. -/
theorem test_limit_narrows : seen (exec (.limit 4) openedP) id = some (activeBlock frameP 0 4, done) := by decide

/-- V-LM-1: the window never grows. -/
theorem test_limit_never_grows :
    seen (exec (.limit 1) (on (activeBlock frameP 4 0))) (fun b => (b.rem, b.status)) = some ((0, 0x81), oob) := by decide

/-- V-CK-20. -/
theorem test_ckclr :
    seen (exec .ckclr (on { activeBlock frameH 4 0 with sum := 0xB91C, lane := 1 })) id =
      some (activeBlock frameH 4 0, done) := by decide

/-- V-CK-15, 6: the region's first byte is a LOW byte. -/
theorem test_ckadd_from_lane_one :
    seen (exec (.ckadd 1 2) (on { withRegs (activeBlock frameH 0 20) [(1, 7), (2, 13)] with sum := 0x8573, lane := 1 }))
        (fun b => (b.sum, b.lane)) = some ((0xFFFF, 0), done) := by decide

/-- V-CK-16: the region check does not wrap. -/
theorem test_ckadd_no_wrap :
    seen (exec (.ckadd 1 2) (on (withRegs (activeBlock [0xff, 0xff, 0xff, 0xff, 0x00, 0x01] 4 2) [(1, 0xFFFFFFFF), (2, 2)])))
        (fun b => (b.sum, b.lane, b.status)) = some ((0, 0, 0x81), oob) := by decide

/-- V-CK-21. -/
theorem test_ckget :
    seen (exec (.ckget 3) (on { activeBlock frameH 0 20 with sum := 0x479E })) (fun b => b.x[3]) =
      some (0x0000B861, done) := by decide

/-- V-CK-19, 7. -/
theorem test_ckvfy_all_ones :
    seen (exec (.ckvfy 6) (on { activeBlock frameH 4 0 with sum := 0xFFFF })) (fun b => (b.x[6], b.sum)) =
      some ((1, 0xFFFF), done) := by decide

/-- V-CK-20. -/
theorem test_ckvfy_clear :
    seen (exec (.ckvfy 2) (on (withRegs (activeBlock frameH 4 0) [(2, 7)]))) (fun b => b.x[2]) = some (0, done) := by decide

/-- V-CK-18, 9: a source is the destination, and the earlier sum is discarded. -/
theorem test_cksum_in_place :
    seen (exec (.cksum 1 1 2) (on { withRegs (activeBlock frameH 0 20) [(1, 12), (2, 8)] with sum := 0xC584 }))
        (fun b => (b.x[1], b.sum, b.lane)) = some ((0x00007DE6, 0x8219, 0), done) := by decide

/-- V-CK-18, 5: on failure the accumulator stays. -/
theorem test_cksum_out_of_bounds :
    seen (exec (.cksum 3 1 2) (on { withRegs (activeBlock frameH 0 20) [(2, 21)] with sum := 0xC584 }))
        (fun b => (b.x[3], b.sum, b.status)) = some ((0, 0xC584, 0x81), oob) := by decide

/-! ## Exceptions and host actions -/

/-- V-CT-4. -/
theorem test_illegal_before_sequence :
    seen (step (given State.reset [.command 0x23000000])) id = some ({ Block.reset with status := 0x02 }, ill) := by decide

/-- V-CT-4. -/
theorem test_sequence_before_bounds :
    seen (step (given State.reset [.command 0x20100000])) id = some ({ Block.reset with status := 0x04 }, seq) := by decide

/-- V-CT-9 (b), FRAME_CAP 4: the fourth push is accepted. -/
theorem test_push_accepted :
    seen (step (given { on (idleBlock [1, 2, 3]) with frameCap := 4 } [.push 4])) id =
      some (idleBlock [1, 2, 3, 4], [.accepted]) := by decide

/-- V-CT-9 (b), FRAME_CAP 4: the fifth is refused. -/
theorem test_push_refused :
    seen (step (given { on (idleBlock [1, 2, 3, 4]) with frameCap := 4 } [.push 5])) id =
      some ({ idleBlock [1, 2, 3, 4] with status := 0x08 }, [.refused]) := by decide

/-- V-CT-5: a push in ACTIVE is refused. -/
theorem test_push_in_active :
    seen (step (given (on { activeBlock [1] 0 1 with status := 0x86 }) [.push 2])) (fun b => (b.flen, b.status)) =
      some ((1, 0x8E), [.refused]) := by decide

/-- V-CT-6, V-RA-1: HostRead of a control register and of an array byte. -/
theorem test_read_rem : seen (step (given openedP [.read (.csr .rem)])) id = some (openedP.block, [.word 6]) := by decide

theorem test_read_arr :
    seen (step (given (on { activeBlock frameA 26 1 with arr := (Vector.replicate 16 0).set 5 0xff, alen := 6 })
      [.read (.arr 5)])) (fun b => b.alen) = some (6, [.byte 0xff]) := by decide

/-- V-CT-13. -/
theorem test_reset_action :
    seen (step (given (on { withRegs (activeBlock [1] 1 0) [(1, 1), (2, 0x8F)] with status := 0x8F }) [.reset])) id =
      some (Block.reset, []) := by decide

/-! ## The checksum as a function (V-CK) -/

theorem test_ck_finished_header : ckFeed (0, 0) frameH = (0xFFFF, 0) ∧ internetChecksum frameH = 0x0000 := by decide
theorem test_ck_odd_trailing_byte :
    ckFeed (0, 0) [0x01, 0x02, 0x03] = (0x0402, 1) ∧ internetChecksum [0x01, 0x02, 0x03] = 0xFBFD := by decide
theorem test_ck_two_carries :
    ckFeed (0, 0) [0x00, 0x01, 0xf2, 0x03, 0xf4, 0xf5, 0xf6, 0xf7] = (0xDDF2, 0) ∧
    internetChecksum [0x00, 0x01, 0xf2, 0x03, 0xf4, 0xf5, 0xf6, 0xf7] = 0x220D := by decide

/-- V-CK-11. -/
theorem test_oc_add16 :
    [ocAdd16 0x0000 0x0000, ocAdd16 0x0000 0xFFFF, ocAdd16 0xFFFF 0x0001, ocAdd16 0x8000 0x8000, ocAdd16 0xFFFF 0xFFFF,
     ocAdd16 0xFFFE 0x0001] = [0x0000, 0xFFFF, 0x0001, 0x0001, 0xFFFF, 0xFFFF] := by decide

/-! ## Text (R63, R64) -/

/-- `li X1, 20 ; a` is no command (register names are lower case), `li x1, 20 ; a` is. -/
theorem test_assemble_li :
    assembleLine ['l', 'i', ' ', 'x', '1', ',', ' ', '2', '0', ' ', ';', 'a'] = some [.command 0x10100014] := by decide

theorem test_assemble_rdc_by_name :
    assembleLine ['R', 'D', 'C', ' ', 'x', '2', ',', 'O', 'F', 'F'] = some [.command 0x11200001] := by decide

theorem test_assemble_extb :
    assembleLine ['E', 'X', 'T', 'B', ' ', 'x', '3', ',', ' ', 'x', '2', ',', ' ', '1', '5'] =
      some [.command 0x12320F01] := by decide

theorem test_assemble_push_and_pseudo :
    assembleProgram (['.', 'p', 'u', 's', 'h', ' ', 'a', 'a', ' ', '0', '1', '\n'] ++ ['R', 'D', 'I', 'P', '4', '\n'] ++
      ['.', 'r', 'e', 's', 'e', 't']) = some [.push 0xaa, .push 0x01, .command 0x23000004, .reset] := by decide

/-! ## Witnesses: states and operands that meet the hypotheses of each statement -/

theorem witness_DecodeOfEncode :
    ∀ i ∈ [Instr.rda 1, .rda 16, .ext 0 0 0 32, .ext 15 15 31 1, .rdc 15 .alen, .skip 0], i.wellFormed = true := by decide

theorem witness_EncodeOfDecode : decode 0x34512000 = .ok (.cksum 5 1 2) := by decide

theorem witness_ReservedOpcodesAreIllegal :
    (∀ op ∈ [0x03, 0x0F, 0x13, 0x1F, 0x26, 0x2F, 0x35, 0xFF],
      (0x03 ≤ op ∧ op ≤ 0x0F) ∨ (0x13 ≤ op ∧ op ≤ 0x1F) ∨ (0x26 ≤ op ∧ op ≤ 0x2F) ∨ 0x35 ≤ op) ∧
    (0x35ABCDEF#32).toNat / 2 ^ 24 = 0x35 ∧
    (given State.reset [.command 0x35ABCDEF]).pending = .command 0x35ABCDEF :: [] := by decide

theorem witness_StrayBitsAreIllegal :
    (0x20310000#32).toNat / 2 ^ 24 = Op.rdu8.code.toNat ∧ Op.rdu8.format.mask.getLsbD 16 = true ∧
    (0x20310000#32).getLsbD 16 = true ∧
    (0x01000001#32).toNat / 2 ^ 24 = Op.openCall.code.toNat ∧ Op.openCall.format.mask.getLsbD 0 = true ∧
    (0x01000001#32).getLsbD 0 = true ∧
    (0x10010000#32).toNat / 2 ^ 24 = Op.li.code.toNat ∧ Op.li.format.mask.getLsbD 19 = true ∧
    (0x23800001#32).getLsbD 23 = true ∧ Op.rda.format.mask.getLsbD 23 = true := by decide

theorem witness_OperandLimits :
    IsIllegal 0x23000000 ∧ decode 0x23000001 = .ok (.rda 1) ∧ decode 0x23000010 = .ok (.rda 16) ∧ IsIllegal 0x23000011 ∧
    decode 0x11F00006 = .ok (.rdc 15 .alen) ∧ IsIllegal 0x11F00007 ∧
    IsIllegal 0x12210400 ∧ decode 0x12211C04 = .ok (.ext 2 1 28 4) ∧ IsIllegal 0x12211D04 ∧ IsIllegal 0x12210021 :=
  ⟨(isIllegal_iff _).mpr ⟨.operandRange, by decide⟩, by decide, by decide,
   (isIllegal_iff _).mpr ⟨.operandRange, by decide⟩, by decide, (isIllegal_iff _).mpr ⟨.operandRange, by decide⟩,
   (isIllegal_iff _).mpr ⟨.operandRange, by decide⟩, by decide, (isIllegal_iff _).mpr ⟨.operandRange, by decide⟩,
   (isIllegal_iff _).mpr ⟨.operandRange, by decide⟩⟩

theorem witness_StepRunsDecodedCommand :
    (given openedP [.command 0x20100000]).pending = .command 0x20100000 :: [] ∧ decode 0x20100000 = .ok (.rdu8 1) := by
  decide

theorem witness_NoActionChangesNothing : openedP.pending = [] := by decide

/-- FRAME_CAP 4: three bytes leave room, four do not, and in ACTIVE there is none at any length. -/
theorem witness_HostPushAppendsOrRefuses :
    Config.ValidFrameCap 4 ∧
    ((idleBlock [1, 2, 3]).status.getLsbD 7 = false ∧ (idleBlock [1, 2, 3]).flen.toNat < 4) ∧
    ¬((idleBlock [1, 2, 3, 4]).status.getLsbD 7 = false ∧ (idleBlock [1, 2, 3, 4]).flen.toNat < 4) ∧
    ¬((activeBlock [1] 0 1).status.getLsbD 7 = false ∧ (activeBlock [1] 0 1).flen.toNat < 4) := by decide

theorem witness_HostReadReturnsTheValue :
    (given openedP [.read (.reg 15)]).pending = .read (.reg 15) :: [] ∧
    (given openedP [.read (.arr 15)]).pending = .read (.arr 15) :: [] ∧
    (given openedP [.read (.csr .alen)]).pending = .read (.csr .alen) :: [] ∧
    Csr.all.map Csr.number = [0, 1, 2, 3, 4, 5, 6] := by decide

theorem witness_ResetAndCloseValues :
    (∃ t, step (given openedP [.reset]) = .next t) ∧ ∃ t, exec .closeCall openedP = .next t := ⟨⟨_, rfl⟩, ⟨_, rfl⟩⟩

theorem witness_HostResetEqualsClose :
    (given openedP [.reset]).pending = .reset :: [] ∧ ∃ t, exec .closeCall (given openedP [.reset]) = .next t :=
  ⟨rfl, ⟨_, rfl⟩⟩

/-- The two modes, for OpenBeginsACall, LiLoadsTheImmediate, RdcReadsTheControlRegister and CkgetReadsTheChecksum (no byte fed). -/
theorem witness_modes :
    State.reset.block.status.getLsbD 7 = false ∧ openedP.block.status.getLsbD 7 = true ∧
    (openedP.block.sum, openedP.block.lane) = ckFeed (0, 0) [] := by decide

theorem witness_ExtExtractsTheField :
    (1 ≤ (32#6).toNat ∧ (32#6).toNat ≤ 32 ∧ (0#5).toNat + (32#6).toNat ≤ 32) ∧
    (1 ≤ (1#6).toNat ∧ (1#6).toNat ≤ 32 ∧ (31#5).toNat + (1#6).toNat ≤ 32) ∧
    openedP.block.status.getLsbD 7 = true := by decide

/-- A cursor with exactly one, two and four bytes left, and one with one byte too few, for Rdu8ReadsOneByte,
Rdu16ReadsBigEndian and Rdu32ReadsBigEndian. -/
theorem witness_reads :
    (Inv (on (activeBlock frameP 5 1)) ∧ 1 ≤ (activeBlock frameP 5 1).rem.toNat ∧ 2 > (activeBlock frameP 5 1).rem.toNat) ∧
    (Inv (on (activeBlock frameP 4 2)) ∧ 2 ≤ (activeBlock frameP 4 2).rem.toNat) ∧
    (Inv (on (activeBlock frameP 2 4)) ∧ 4 ≤ (activeBlock frameP 2 4).rem.toNat) ∧
    4 > (activeBlock frameP 3 3).rem.toNat ∧ 1 > (activeBlock frameP 6 0).rem.toNat ∧
    (activeBlock frameP 5 1).status.getLsbD 7 = true :=
  ⟨⟨inv_of_parts (by decide), by decide, by decide⟩, ⟨inv_of_parts (by decide), by decide⟩,
   ⟨inv_of_parts (by decide), by decide⟩, by decide, by decide, by decide⟩

theorem witness_RdaReadsTheArray :
    Inv (on (activeBlock frameA 0 16)) ∧ (activeBlock frameA 0 16).status.getLsbD 7 = true ∧
    (1 ≤ (16#16).toNat ∧ (16#16).toNat ≤ 16 ∧ (16#16).toNat ≤ (activeBlock frameA 0 16).rem.toNat) ∧
    (1 ≤ (1#16).toNat ∧ (1#16).toNat ≤ 16) ∧ (16#16).toNat > (activeBlock frameA 12 15).rem.toNat :=
  ⟨inv_of_parts (by decide), by decide, by decide, by decide, by decide⟩

/-- `SKIP 6` and `LIMIT 6` just fit, 7 does not, for SkipConsumesOpaqueBytes and LimitNarrowsTheWindow. -/
theorem witness_SkipAndLimit :
    Inv openedP ∧ openedP.block.status.getLsbD 7 = true ∧ (6#16).toNat ≤ openedP.block.rem.toNat ∧
    (7#16).toNat > openedP.block.rem.toNat := ⟨inv_openedP, by decide, by decide, by decide⟩

theorem witness_CkclrClearsTheAccumulator :
    openedP.block.status.getLsbD 7 = true ∧ ∃ t, exec .ckclr openedP = .next t := ⟨by decide, ⟨_, rfl⟩⟩

/-- Frame P opened, with a region that ends with the frame in `x1`, `x2` and one a byte longer in `x1`, `x3`. -/
def regionP : State := on (withRegs (activeBlock frameP 0 6) [(1, 2), (2, 4), (3, 5)])

/-- For CkaddFeedsTheRegion and CksumIsTheInternetChecksum: a region that just fits, and one that does not. -/
theorem witness_regions :
    Inv regionP ∧ regionP.block.status.getLsbD 7 = true ∧
    regionP.block.x[(1 : Reg)].toNat + regionP.block.x[(2 : Reg)].toNat ≤ regionP.block.flen.toNat ∧
    regionP.block.x[(1 : Reg)].toNat + regionP.block.x[(3 : Reg)].toNat > regionP.block.flen.toNat :=
  ⟨inv_of_parts (by decide), by decide, by decide, by decide⟩

theorem witness_RegionsAreConcatenated :
    (∃ t, exec .ckclr regionP = .next t) ∧ Inv regionP ∧ regionP.block.status.getLsbD 7 = true ∧
    (regionP.block.sum, regionP.block.lane) = ckFeed (0, 0) [] :=
  ⟨⟨_, rfl⟩, inv_of_parts (by decide), by decide, by decide⟩

/-- `SUM` all ones and not. -/
theorem witness_CkvfyTestsForAllOnes :
    { activeBlock frameH 4 0 with sum := 0xFFFF }.sum = 0xFFFF ∧ (activeBlock frameH 4 0).sum ≠ 0xFFFF ∧
    (activeBlock frameH 4 0).status.getLsbD 7 = true := by decide

/-- A second state with the same two bytes at another offset, another cursor and another accumulator. -/
theorem witness_CksumDependsOnItsRegionOnly :
    let s := on (withRegs (activeBlock [0x12, 0x34] 0 2) [(1, 0), (2, 2)])
    let s' := on { withRegs (activeBlock [0xff, 0x12, 0x34] 3 0) [(1, 1), (2, 2)] with sum := 0x0100, lane := 1 }
    Inv s ∧ Inv s' ∧ s.block.status.getLsbD 7 = true ∧ s'.block.status.getLsbD 7 = true ∧
    s.block.x[(1 : Reg)].toNat + s.block.x[(2 : Reg)].toNat ≤ s.block.flen.toNat ∧
    s'.block.x[(1 : Reg)].toNat + s'.block.x[(2 : Reg)].toNat ≤ s'.block.flen.toNat ∧
    s.block.x[(2 : Reg)] = s'.block.x[(2 : Reg)] ∧
    ∀ k < s.block.x[(2 : Reg)].toNat,
      s.block.fb.read (s.block.x[(1 : Reg)].toNat + k) = s'.block.fb.read (s'.block.x[(1 : Reg)].toNat + k) :=
  ⟨inv_of_parts (by decide), inv_of_parts (by decide), by decide, by decide, by decide, by decide, by decide, by decide⟩

/-- A command of each code, from a state of the invariants. -/
theorem witness_EveryCommandReturnsOneCode :
    (∀ w : Word, Inv (given openedP [.command w])) ∧
    (∃ t, step (given openedP [.command 0x00000000]) = .next t) ∧ (∃ t, step (given openedP [.command 0x24000007]) = .next t) ∧
    (∃ t, step (given openedP [.command 0xFFFFFFFF]) = .next t) ∧ ∃ t, step (given openedP [.command 0x01000000]) = .next t :=
  ⟨fun _ => ⟨inv_openedP.block, inv_openedP.frameCap⟩, ⟨_, rfl⟩, ⟨_, rfl⟩, ⟨_, rfl⟩, ⟨_, rfl⟩⟩

theorem witness_ExceptionWritesOnlyItsBit :
    (∃ t, exec (.skip 7) openedP = .next t) ∧ (∃ t, exec (.rda 0) openedP = .next t) ∧
    ∃ t, exec .openCall openedP = .next t := ⟨⟨_, rfl⟩, ⟨_, rfl⟩, ⟨_, rfl⟩⟩

theorem witness_SequenceErrorByMode :
    (Instr.skip 0).wellFormed = true ∧ State.reset.block.status.getLsbD 7 = false ∧ openedP.block.status.getLsbD 7 = true ∧
    (∃ t, exec .nop State.reset = .next t) ∧ ∃ t, exec (.skip 0) openedP = .next t :=
  ⟨by decide, by decide, by decide, ⟨_, rfl⟩, ⟨_, rfl⟩⟩

theorem witness_OutOfBoundsExactly :
    (Instr.skip 7).wellFormed = true ∧ openedP.block.status.getLsbD 7 = true ∧ OutOfBoundsIn (.skip 7) openedP.block ∧
    OutOfBoundsIn (.ckadd 1 3) regionP.block ∧ seen (exec (.skip 7) openedP) (fun b => b.status) = some (0x81, oob) :=
  ⟨by decide, by decide, .inl ⟨7, by decide, by decide⟩, .inr ⟨1, 3, by decide, by decide⟩, by decide⟩

theorem witness_ExceptionPriority :
    IsIllegal 0x23000011 ∧
    (decode 0x20100000 = .ok (.rdu8 1) ∧ admitted (Instr.rdu8 1).op State.reset.block.active = false) ∧
    (decode 0x24000007 = .ok (.skip 7) ∧ admitted (Instr.skip 7).op openedP.block.active = true ∧
      OutOfBoundsIn (.skip 7) openedP.block) :=
  ⟨(isIllegal_iff _).mpr ⟨.operandRange, by decide⟩, by decide, by decide, by decide, .inl ⟨7, by decide, by decide⟩⟩

/-- A state with all four sticky bits set, its next action no end of a call, then one. -/
def stickyState (a : HostAction) : State := given (on { activeBlock [1] 1 0 with status := 0x8F }) [a]

theorem witness_StickyBitsStay :
    (∃ t, step (stickyState (.command 0x30000000)) = .next t) ∧ ¬ (stickyState (.command 0x30000000)).EndsCall ∧
    (∀ k < 4, (stickyState .reset).block.status.getLsbD k = true) ∧
    (∃ t, step (stickyState .reset) = .next t) ∧ (stickyState .reset).EndsCall ∧
    (stickyState (.command 0x02000000)).EndsCall := by
  refine ⟨⟨_, rfl⟩, ?_, by decide, ⟨_, rfl⟩, .inl rfl, .inr ⟨_, rfl, by decide⟩⟩
  rintro (h | ⟨w, h, hd⟩)
  · exact absurd h (by decide)
  · cases h
    exact absurd hd (by decide)

/-- An `OPEN` from IDLE, and a `CLOSE` from ACTIVE. -/
theorem witness_ModeTransitions :
    (∃ t, step (given State.reset [.command 0x01000000]) = .next t ∧ t.block.status.getLsbD 7 = true) ∧
    (∃ t, step (given openedP [.command 0x02000000]) = .next t ∧ t.block.status.getLsbD 7 = false) :=
  ⟨⟨_, rfl, by decide⟩, ⟨_, rfl, by decide⟩⟩

/-- The smallest and the largest store. -/
theorem witness_ResetMeetsTheInvariants : Config.ValidFrameCap 1 ∧ Config.ValidFrameCap 65535 := by decide

/-- From an ACTIVE and from an IDLE state of the invariants, a command that moves the cursor and a push. -/
theorem witness_StepKeepsTheInvariants :
    (Inv (given regionP [.command 0x20000000]) ∧ ∃ t, step (given regionP [.command 0x20000000]) = .next t) ∧
    (Inv (given (on (idleBlock frameP)) [.push 7]) ∧ ∃ t, step (given (on (idleBlock frameP)) [.push 7]) = .next t) :=
  ⟨⟨inv_of_parts (by decide), ⟨_, rfl⟩⟩, ⟨inv_of_parts (by decide), ⟨_, rfl⟩⟩⟩

theorem witness_BlockIsNeverStuck : Inv (given regionP [.command 0xFFFFFFFF]) := inv_of_parts (by decide)

theorem witness_FrameIsImmutableInACall :
    (stickyState (.push 5)).block.status.getLsbD 7 = true ∧ ¬ (stickyState (.push 5)).EndsCall ∧
    ∃ t, step (stickyState (.push 5)) = .next t := by
  refine ⟨by decide, ?_, ⟨_, rfl⟩⟩
  rintro (h | ⟨w, h, -⟩)
  · exact absurd h (by decide)
  · cases h

theorem witness_CursorOnlyAdvances :
    Inv openedP ∧ (Instr.limit 4 ≠ .openCall ∧ Instr.limit 4 ≠ .closeCall ∧ ∃ t, exec (.limit 4) openedP = .next t) ∧
    (Instr.skip 6 ≠ .closeCall ∧ (∀ n, Instr.skip 6 ≠ .limit n) ∧ ∃ t, exec (.skip 6) openedP = .next t) :=
  ⟨inv_openedP, ⟨by decide, by decide, ⟨_, rfl⟩⟩, ⟨by decide, by simp, ⟨_, rfl⟩⟩⟩

theorem witness_FrameCapIsFixed : ∃ t, step (given openedP [.reset]) = .next t := ⟨_, rfl⟩

/-- For RegisterFrame, FrameStoreAndCursorFrame and AccumulatorAndStatusFrame: a command with a destination, and one that
moves no cursor. -/
theorem witness_frames :
    (Instr.rdu8 3 ≠ .closeCall ∧ destReg (.rdu8 3) ≠ some 4 ∧ ∃ t, exec (.rdu8 3) openedP = .next t) ∧
    ((∀ n, Instr.rdu8 3 ≠ .rda n) ∧ regionRegs (.rdu8 3) = none) ∧
    (windowNeed (.cksum 5 1 2) = none ∧ ∃ t, exec (.cksum 5 1 2) regionP = .next t) ∧
    seen (exec (.rdu8 3) openedP) (fun b => b.status) = some (0x80, done) :=
  ⟨⟨by decide, by decide, ⟨_, rfl⟩⟩, ⟨by simp, by decide⟩, ⟨by decide, ⟨_, rfl⟩⟩, by decide⟩

/-- A nonzero accumulator. -/
theorem witness_SumIsZeroOnlyOfZeroBytes : ((1, 1) : Accumulator).1 ≠ 0 := by decide

theorem witness_ChecksumZeroAndSwapFacts :
    ([] : List Byte).length % 2 = 0 ∧ ([0x12, 0x34] : List Byte).length % 2 = 0 := by decide

/-- V-CK-12: byte 8 of frame H, bit 0. -/
theorem witness_SingleBitCorruptionIsDetected :
    internetChecksum (frameH.take 8 ++ [0x40] ++ frameH.drop 9) = 0 ∧
    internetChecksum (frameH.take 8 ++ [0x40 ^^^ (1#8 <<< 0)] ++ frameH.drop 9) = 0xFEFF := by decide

/-- V-CK-1b: frame H with its checksum field zeroed. -/
theorem witness_FinishedHeaderChecksToZero :
    (frameH.take 10).length % 2 = 0 ∧ (frameH.drop 12).length % 2 = 0 ∧
    internetChecksum (frameH.take 10 ++ [0, 0] ++ frameH.drop 12) = 0xb8#8 ++ 0x61#8 := by decide

/-- V-CK-14: the one case where the two validations differ, and one where they agree. -/
theorem witness_ValidationMethodsDifferInOneCase :
    (([0xff, 0xfe, 0x00, 0x01] : List Byte).length % 2 = 0 ∧
      (ckFeed (0, 0) ([0xff, 0xfe, 0x00, 0x01] ++ [])).1 = 0xFFFF ∧ 0xff#8 ++ 0xff#8 = 0xFFFF#16) ∧
    ¬((ckFeed (0, 0) (frameH.take 10 ++ frameH.drop 12)).1 = 0xFFFF ∧ 0xb8#8 ++ 0x61#8 = 0xFFFF#16) := by decide

/-- V-EX-2: the bytes `6a bc de f0`; the first and the last bit of the group. -/
theorem witness_FieldBitsAreWireBits :
    (wireBits [0x6a, 0xbc, 0xde, 0xf0])[0]? = some false ∧ (wireBits [0x6a, 0xbc, 0xde, 0xf0])[31]? = some false ∧
    (wireBits [0x6a, 0xbc, 0xde, 0xf0])[1]? = some true := by decide

theorem witness_MixedWidthReadsSeeTheSameBytes :
    Inv (on (activeBlock frameP 4 2)) ∧ (activeBlock frameP 4 2).status.getLsbD 7 = true ∧
    2 ≤ (activeBlock frameP 4 2).rem.toNat := ⟨inv_of_parts (by decide), by decide, by decide⟩

/-- V-EX-2b and 2c: the traffic class of an IPv6 header, 4 bits in and 8 wide, and the flow label, 12 bits in and 20 wide. -/
theorem witness_PackedFieldByExt :
    fieldValue [0x6a, 0xbc, 0xde, 0xf0] = 0x6ABCDEF0 ∧
    (1 ≤ (8#6).toNat ∧ 4 + (8#6).toNat ≤ 32 ∧ (20#5).toNat = 32 - 4 - (8#6).toNat) ∧
    (12 + (20#6).toNat ≤ 32 ∧ (0#5).toNat = 32 - 12 - (20#6).toNat) ∧
    bitsNumber (((wireBits [0x6a, 0xbc, 0xde, 0xf0]).drop 4).take 8) = 0xAB ∧
    bitsNumber (((wireBits [0x6a, 0xbc, 0xde, 0xf0]).drop 12).take 20) = 0xCDEF0 := by decide

theorem witness_ViewsStayInTheFrame :
    Inv openedP ∧ seen (exec (.skip 6) openedP) Block.view = some ((6, 0), done) := ⟨inv_openedP, by decide⟩

/-- The same actions after a `CLOSE` and after a reset, from an ACTIVE state and from `State.reset`. -/
theorem witness_CallsDoNotInterfere :
    ∀ a ∈ [HostAction.command 0x02000000, .reset],
      (given regionP [a, .push 1]).EndsCall ∧
      (given regionP [a, .push 1]).frameCap = (given State.reset [a, .push 1]).frameCap ∧
      (given regionP [a, .push 1]).pending = (given State.reset [a, .push 1]).pending ∧
      ∃ t, Host.Core.run Sys2Proof.core 2 (given regionP [a, .push 1]) = .next t := by
  intro a h
  simp only [List.mem_cons, List.not_mem_nil, or_false] at h
  obtain rfl | rfl := h
  · exact ⟨.inr ⟨_, rfl, by decide⟩, rfl, rfl, ⟨_, rfl⟩⟩
  · exact ⟨.inl rfl, rfl, rfl, ⟨_, rfl⟩⟩

end Sys2Proof.Tests
end

section
/-! The scope statements (00_scope.md): what a raised exception writes (R10), and that no step changes `FRAME_CAP` (R6). -/

namespace Sys2Proof.Machine

/-! ## Exceptions (R10) -/

/-- The three states an exception can leave, one for each. -/
theorem takeException_cases (e : Exn) (s : State) :
    takeException e s = s.onlySets 0 .oob ∨ takeException e s = s.onlySets 1 .ill ∨
    takeException e s = s.onlySets 2 .seq := by
  cases e with
  | outOfBounds => exact .inl (takeException_oob s)
  | illegalCommand => exact .inr (.inl (takeException_ill s))
  | sequenceError => exact .inr (.inr (takeException_seq s))

/-- Settles O32: of the ways `exec` can end (`exec_cases`), each is an exception's state but the rule's own completion. -/
theorem exceptionWritesOnlyItsBit : Obligations.ExceptionWritesOnlyItsBit := by
  intro i s t h
  obtain ⟨-, ht⟩ | ⟨-, -, ht⟩ | ⟨-, -, ⟨b, -, ht⟩ | ⟨e, -, ht⟩⟩ := exec_cases h
  · exact .inr (.inr (.inl ht))
  · exact .inr (.inr (.inr ht))
  · left
    rw [ht, State.doneWith_block]
  · right
    rw [ht]
    exact takeException_cases e s

/-! ## `FRAME_CAP` (R6) -/

/-- A command keeps `FRAME_CAP`, however it completes. -/
theorem exec_frameCap {i : Instr} {s t : State} (h : exec i s = .next t) : t.frameCap = s.frameCap := by
  obtain ht | ht | ht | ht := exceptionWritesOnlyItsBit i s t h
  · rw [ht, State.doneWith_frameCap]
  all_goals rw [ht, State.onlySets_frameCap]

@[simp] theorem hostPush_frameCap (b : Byte) (s : State) : (hostPush b s).frameCap = s.frameCap := by
  obtain ⟨-, -, h⟩ | ⟨-, h⟩ := hostPush_cases b s
  all_goals rw [h]

theorem hostCommand_frameCap {w : Word} {s t : State} (h : hostCommand w s = .next t) : t.frameCap = s.frameCap := by
  obtain ⟨-, hc⟩ | ⟨i, -, hc⟩ := hostCommand_cases w s
  · cases hc.symm.trans h
    exact State.onlySets_frameCap s 1 .ill
  · exact exec_frameCap (hc.symm.trans h)

/-- Each of the four host actions (20_memory.md R42) keeps `FRAME_CAP`. -/
theorem perform_frameCap {a : HostAction} {s t : State} (h : perform a s = .next t) : t.frameCap = s.frameCap := by
  cases a with
  | push b => cases h; exact hostPush_frameCap b s
  | command w => exact hostCommand_frameCap h
  | read target => cases h; exact hostRead_frameCap target s
  | reset => cases h; exact hostReset_frameCap s

/-- Settles O43: a step is nothing at all or one host action, which keeps `FRAME_CAP`. -/
theorem frameCapIsFixed : Obligations.FrameCapIsFixed := by
  intro s t h
  obtain ⟨-, hs⟩ | ⟨a, rest, -, hs⟩ := step_cases s
  · cases hs.symm.trans h
    rfl
  · exact perform_frameCap (s := { s with pending := rest }) (hs.symm.trans h)

end Sys2Proof.Machine
end

section
/-! The statements of 10_state.md: the invariants (R24), the values after reset (R25), the cursor (R19) and what a command may
write (R23). What is said of commands rests on one inversion lemma, `exec_outcome`: a command ends in an exception or in
one of the shapes of `Writes`. -/

namespace Sys2Proof.Machine

/-! ## What the rule of a command writes (R23) -/

/-- All a window check can let through. -/
theorem Block.checkWindow_done {b b' : Block} {n : Nat} {k : Result} (h : b.checkWindow n k = .done b') :
    n ≤ b.rem.toNat ∧ k = .done b' := by
  unfold Block.checkWindow at h
  split at h
  · exact ⟨‹_›, h⟩
  · cases h

/-- The shapes a completed rule's writes have, with the bounds its check has passed:
`Writes b i b'` where command `i` takes the block `b` to `b'`. -/
inductive Writes (b : Block) : Instr → Block → Prop
  | nop : Writes b .nop b
  | openCall : Writes b .openCall ({ b with off := 0, rem := b.flen }.setFlag .act)
  | closeCall : Writes b .closeCall Block.reset
  /-- A command that computes a general register from the state (`LI`, `RDC`, `EXT`, `CKGET`, `CKVFY`). -/
  | reg {i : Instr} {rd : Reg} (v : Word) (hd : destReg i = some rd) : Writes b i (b.writeReg rd v)
  /-- A field read (`RDU8`, `RDU16`, `RDU32`). -/
  | field {i : Instr} {rd : Reg} {n : Nat} (v : Word) (hd : destReg i = some rd) (hw : windowNeed i = some n)
      (hn : n ≤ b.rem.toNat) : Writes b i ((b.writeReg rd v).consume n)
  | rda {n : Half} (s : List Byte) (hs : s.length = n.toNat) (hn : n.toNat ≤ b.rem.toNat) :
      Writes b (.rda n) ((b.writeArr s).consume n.toNat)
  | skip {n : Half} (hn : n.toNat ≤ b.rem.toNat) : Writes b (.skip n) (b.consume n.toNat)
  | limit {n : Half} (hn : n.toNat ≤ b.rem.toNat) : Writes b (.limit n) { b with rem := n }
  | ckclr : Writes b .ckclr (b.setAccumulator (0, 0))
  | ckadd {rs1 rs2 : Reg} (acc : Accumulator) : Writes b (.ckadd rs1 rs2) (b.setAccumulator acc)
  | cksum {rd rs1 rs2 : Reg} (acc : Accumulator) (v : Word) :
      Writes b (.cksum rd rs1 rs2) ((b.setAccumulator acc).writeReg rd v)

/-- A field read that completes has written its register and consumed its bytes. -/
theorem writes_of_readField {b b' : Block} {i : Instr} {n : Nat} {rd : Reg} (hd : destReg i = some rd)
    (hw : windowNeed i = some n) (h : b.readField n rd = .done b') : Writes b i b' := by
  obtain ⟨hn, s, -, rfl⟩ := Block.readWindow_done h
  exact .field (fieldValue s) hd hw hn

/-- A rule that completes has made the writes of one of the shapes. -/
theorem writes_of_ruleOf {i : Instr} {b b' : Block} (h : ruleOf i b = .done b') : Writes b i b' := by
  cases i with
  | nop => cases h; exact .nop
  | openCall => cases h; exact .openCall
  | closeCall => cases h; exact .closeCall
  | li rd imm16 => cases h; exact .reg _ rfl
  | rdc rd csr => cases h; exact .reg _ rfl
  | ext rd rs1 lsb width => cases h; exact .reg _ rfl
  | rdu8 rd => exact writes_of_readField rfl rfl h
  | rdu16 rd => exact writes_of_readField rfl rfl h
  | rdu32 rd => exact writes_of_readField rfl rfl h
  | rda n =>
    obtain ⟨hn, s, hs, rfl⟩ := Block.readWindow_done h
    exact .rda s (Memory.readSpan_length hs) hn
  | skip n =>
    obtain ⟨hn, hb⟩ := Block.checkWindow_done h
    cases hb
    exact .skip hn
  | limit n =>
    obtain ⟨hn, hb⟩ := Block.checkWindow_done h
    cases hb
    exact .limit hn
  | ckclr => cases h; exact .ckclr
  | ckadd rs1 rs2 =>
    obtain ⟨-, s, -, rfl⟩ := Block.readRegion_done h
    exact .ckadd _
  | ckget rd => cases h; exact .reg _ rfl
  | ckvfy rd => cases h; exact .reg _ rfl
  | cksum rd rs1 rs2 =>
    obtain ⟨-, s, -, rfl⟩ := Block.readRegion_done h
    exact .cksum _ _

/-- Outside ACTIVE only `NOP`, `OPEN` and `CLOSE` are admitted (R101). -/
theorem active_or_idle_command {i : Instr} {active : Bool} (ha : admitted i.op active = true) :
    active = true ∨ i = .nop ∨ i = .openCall ∨ i = .closeCall := by
  cases active with
  | true => exact .inl rfl
  | false => exact .inr ((admitted_idle i).mp ha)

/-- A command with a destination is admitted in ACTIVE only. -/
theorem active_of_destReg {i : Instr} {b : Block} {rd : Reg} (ha : admitted i.op b.active = true)
    (hd : destReg i = some rd) : b.active = true := by
  obtain hact | rfl | rfl | rfl := active_or_idle_command ha
  · exact hact
  all_goals cases hd

/-- An admitted command's rule raises an exception in ACTIVE only. -/
theorem active_of_ruleOf_raise {i : Instr} {b : Block} {e : Exn} (ha : admitted i.op b.active = true)
    (hr : ruleOf i b = .raise e) : b.active = true := by
  obtain hact | rfl | rfl | rfl := active_or_idle_command ha
  · exact hact
  all_goals cases hr

/-- All a command can come to: an exception, OutOfBounds in ACTIVE only, or a completed rule's writes. -/
theorem exec_outcome {i : Instr} {s t : State} (h : exec i s = .next t) :
    (∃ e, t = takeException e s ∧ (e = .outOfBounds → s.block.active = true)) ∨
    (∃ b, t = s.doneWith b ∧ i.wellFormed = true ∧ admitted i.op s.block.active = true ∧ Writes s.block i b) := by
  obtain ⟨-, ht⟩ | ⟨-, -, ht⟩ | ⟨hwf, ha, ⟨b, hr, ht⟩ | ⟨e, hr, ht⟩⟩ := exec_cases h
  · exact .inl ⟨.illegalCommand, ht, nofun⟩
  · exact .inl ⟨.sequenceError, ht, nofun⟩
  · exact .inr ⟨b, ht, hwf, ha, writes_of_ruleOf hr⟩
  · exact .inl ⟨e, ht, fun _ => active_of_ruleOf_raise ha hr⟩

/-! ## The bits of STATUS after a flag is set (R21) -/

/-- Setting a flag sets its bit and leaves the others. -/
theorem Block.setFlag_getLsbD (b : Block) (f : Flag) (k : Nat) :
    (b.setFlag f).status.getLsbD k = (b.status.getLsbD k || decide (k = f.bit)) := by
  have hf : f.bit < 8 := by cases f <;> decide
  rw [Block.setFlag_status, BitVec.getLsbD_or, BitVec.getLsbD_shiftLeft, BitVec.getLsbD_one]
  congr 1
  rw [Bool.eq_iff_iff]
  simp only [Bool.and_eq_true, Bool.not_eq_true', decide_eq_true_eq, decide_eq_false_iff_not]
  omega

/-- The reserved bits 4 to 6 are no flag's. -/
theorem Block.setFlag_reserved (b : Block) (f : Flag) (k : Fin 3) :
    (b.setFlag f).status.getLsbD (4 + k.val) = b.status.getLsbD (4 + k.val) := by
  have hk : 4 + k.val ≠ f.bit := by revert k; cases f <;> decide
  rw [Block.setFlag_getLsbD, decide_eq_false hk, Bool.or_false]

theorem Flag.eq_oob_of_bit {f : Flag} (h : f.bit = 0) : f = .oob := by
  cases f with
  | oob => rfl
  | ill | seq | wrerr | act => cases h

theorem Exn.eq_outOfBounds_of_flag {e : Exn} (h : e.flag = .oob) : e = .outOfBounds := by
  cases e with
  | outOfBounds => rfl
  | illegalCommand | sequenceError => cases h

/-- An exception's bit lies below the bits 3 to 7 (60_exceptions.md R110). -/
theorem Exn.flag_bit_lt (e : Exn) : e.flag.bit < 3 := by cases e <;> decide

/-! ## The cursor after bytes are consumed (R19) -/

/-- Consuming from the window moves OFF forward, with no wrap, by what it takes off REM, whatever block `c` the bytes
were delivered into (log entry 6). -/
theorem Block.consume_cursor {b c : Block} {n : Nat} (hoff : c.off = b.off) (hrem : c.rem = b.rem)
    (hwin : b.off.toNat + b.rem.toNat ≤ b.flen.toNat) (hn : n ≤ b.rem.toNat) :
    (c.consume n).off.toNat = b.off.toNat + n ∧ (c.consume n).rem.toNat = b.rem.toNat - n := by
  have := b.flen.isLt
  rw [Block.consume_off, Block.consume_rem, Block.off_add_eq, Block.rem_sub_eq (hrem ▸ hn), hoff, hrem,
    BitVec.toNat_ofNat, BitVec.toNat_ofNat]
  exact ⟨Nat.mod_eq_of_lt (by omega), Nat.mod_eq_of_lt (by omega)⟩

/-! ## Every operation keeps the invariants (R24) -/

/-- The block after reset and after `CLOSE` meets the invariants, for any `FRAME_CAP`. -/
theorem Block.inv_reset (cap : Nat) : Block.reset.Inv cap where
  window := Nat.le_refl 0
  capacity := Nat.zero_le cap
  frame := rfl
  idle _ :=
    { off := rfl
      rem := rfl
      x := fun i => Vector.getElem_replicate i.isLt
      arr := fun i => Vector.getElem_replicate i.isLt
      alen := rfl
      sum := rfl
      lane := rfl
      oob := rfl }
  alen := Nat.zero_le 16
  arrTail i _ := Vector.getElem_replicate i.isLt
  reserved _ := BitVec.getLsbD_zero

/-- (I2) asks nothing of a block in ACTIVE. -/
theorem Block.callStateClear_of_active {b : Block} (ha : b.active = true) (hi : b.status.getLsbD 7 = false) :
    b.CallStateClear := by
  rw [Block.active_eq, hi] at ha
  cases ha

/-- A well-formed `RDA` reads at most the sixteen bytes `ARR` holds (30_encoding.md R61). -/
theorem rda_count_le {n : Half} (hwf : (Instr.rda n).wellFormed = true) : n.toNat ≤ 16 := by
  rw [Instr.wellFormed, rdaCountOk, Bool.and_eq_true, decide_eq_true_eq, decide_eq_true_eq] at hwf
  exact hwf.2

section
variable {b : Block} {cap : Nat} (h : b.Inv cap)
include h

theorem Block.Inv.writeReg (ha : b.active = true) (r : Reg) (v : Word) : (b.writeReg r v).Inv cap :=
  { h with idle := Block.callStateClear_of_active ha }

theorem Block.Inv.setAccumulator (ha : b.active = true) (acc : Accumulator) : (b.setAccumulator acc).Inv cap :=
  { h with idle := Block.callStateClear_of_active ha }

/-- (I3): the bytes past the new `ALEN` are 0. -/
theorem Block.Inv.writeArr (ha : b.active = true) {s : List Byte} (hs : s.length ≤ 16) : (b.writeArr s).Inv cap := by
  have hl : (b.writeArr s).alen.toNat = s.length := by
    rw [Block.writeArr_alen, BitVec.toNat_ofNat, Nat.mod_eq_of_lt (by omega)]
  have hact : (b.writeArr s).active = true := by rwa [Block.active_eq, Block.writeArr_status]
  exact
    { window := by simpa using h.window
      capacity := by simpa using h.capacity
      frame := by simpa [Block.FrameOk] using h.frame
      idle := Block.callStateClear_of_active hact
      alen := hl ▸ hs
      arrTail := fun i hi => by simp [hl ▸ hi]
      reserved := by simpa using h.reserved }

/-- (I1): what OFF gains REM loses. -/
theorem Block.Inv.consume (ha : b.active = true) {n : Nat} (hn : n ≤ b.rem.toNat) : (b.consume n).Inv cap := by
  have hwin := h.window
  obtain ⟨hoff, hrem⟩ := Block.consume_cursor (c := b) rfl rfl hwin hn
  refine { h with idle := Block.callStateClear_of_active ha, window := ?_ }
  rw [hoff, hrem, Block.consume_flen]
  omega

theorem Block.Inv.limit (ha : b.active = true) {n : Half} (hn : n.toNat ≤ b.rem.toNat) :
    Block.Inv { b with rem := n } cap :=
  { h with
    idle := Block.callStateClear_of_active ha
    window := Nat.le_trans (Nat.add_le_add_left hn _) h.window }

/-- (I5) is kept by every flag; (I2) by every flag but `OOB`, which only a command in ACTIVE sets. -/
theorem Block.Inv.setFlag {f : Flag} (hoob : f = .oob → b.active = true) : (b.setFlag f).Inv cap := by
  refine { h with idle := fun hi => ?_, reserved := fun k => (b.setFlag_reserved f k).trans (h.reserved k) }
  rw [Block.setFlag_getLsbD, Bool.or_eq_false_iff] at hi
  have hclear := h.idle hi.1
  have hf : f ≠ .oob := fun hf => Bool.false_ne_true (hi.1.symm.trans (hoob hf))
  have hbit : (0 : Nat) ≠ f.bit := fun h0 => hf (Flag.eq_oob_of_bit h0.symm)
  refine { hclear with oob := ?_ }
  rw [Block.setFlag_getLsbD, hclear.oob, decide_eq_false hbit, Bool.or_self]

/-- `OPEN` puts the window over the whole frame and enters ACTIVE. -/
theorem Block.Inv.openCall : ({ b with off := 0, rem := b.flen }.setFlag .act).Inv cap :=
  { h with
    window := Nat.le_of_eq (Nat.zero_add _)
    idle := Block.callStateClear_of_active (by simp [Block.active_eq, Flag.bit])
    reserved := fun k => (Block.setFlag_reserved _ .act k).trans (h.reserved k) }

/-- A byte appended while there is room. -/
theorem Block.Inv.push (hcap : cap ≤ 65535) (hroom : b.flen.toNat < cap) (v : Byte) :
    Block.Inv { b with fb := b.fb.write b.flen.toNat v, flen := b.flen + 1 } cap := by
  have hlen : (b.flen + 1).toNat = b.flen.toNat + 1 := by
    have hfit : b.flen.toNat + 1 < 2 ^ 16 := by omega
    exact (BitVec.toNat_add b.flen 1).trans (Nat.mod_eq_of_lt hfit)
  refine { h with window := ?_, capacity := ?_, frame := ?_, idle := fun hi => { h.idle hi with } }
  · simp only [hlen]
    exact Nat.le_succ_of_le h.window
  · simp only [hlen]
    exact hroom
  · unfold Block.FrameOk
    simp only [hlen]
    exact Memory.write_frame _ _ v h.frame

/-- Whatever an admitted command writes keeps the invariants; but for the three commands of IDLE it is in ACTIVE. -/
theorem Block.Inv.writes {i : Instr} {b' : Block} (hwf : i.wellFormed = true) (ha : admitted i.op b.active = true)
    (hw : Writes b i b') : b'.Inv cap := by
  cases hw with
  | nop => exact h
  | openCall => exact h.openCall
  | closeCall => exact Block.inv_reset cap
  | reg v hd => exact h.writeReg (active_of_destReg ha hd) _ v
  | field v hd _ hn => exact (h.writeReg (active_of_destReg ha hd) _ v).consume (active_of_destReg ha hd) hn
  | rda s hs hn =>
    have hact : (b.writeArr s).active = true := by rwa [Block.active_eq, Block.writeArr_status]
    exact (h.writeArr ha (hs ▸ rda_count_le hwf)).consume hact (by rwa [Block.writeArr_rem])
  | skip hn => exact h.consume ha hn
  | limit hn => exact h.limit ha hn
  | ckclr => exact h.setAccumulator ha _
  | ckadd acc => exact h.setAccumulator ha acc
  | cksum acc v => exact (h.setAccumulator ha acc).writeReg ha _ v

end

/-- Every command keeps the invariants, however it completes. -/
theorem Inv.exec {i : Instr} {s t : State} (hs : Inv s) (h : exec i s = .next t) : Inv t := by
  obtain ⟨e, rfl, hact⟩ | ⟨b, rfl, hwf, ha, hw⟩ := exec_outcome h
  · exact ⟨hs.block.setFlag fun hf => hact (Exn.eq_outOfBounds_of_flag hf), hs.frameCap⟩
  · exact ⟨hs.block.writes hwf ha hw, hs.frameCap⟩

/-- A push keeps the invariants, accepted or refused. -/
theorem Inv.hostPush {s : State} (hs : Inv s) (v : Byte) : Inv (hostPush v s) := by
  obtain ⟨-, hroom, hp⟩ | ⟨-, hp⟩ := hostPush_cases v s
  · rw [hp]
    exact ⟨hs.block.push hs.frameCap.2 hroom v, hs.frameCap⟩
  · rw [hp]
    exact ⟨hs.block.setFlag nofun, hs.frameCap⟩

theorem Inv.hostCommand {w : Word} {s t : State} (hs : Inv s) (h : hostCommand w s = .next t) : Inv t := by
  obtain ⟨-, hc⟩ | ⟨i, -, hc⟩ := hostCommand_cases w s
  · cases hc.symm.trans h
    exact ⟨hs.block.setFlag (f := .ill) nofun, hs.frameCap⟩
  · exact hs.exec (hc.symm.trans h)

/-- Each of the four host actions (20_memory.md R42) keeps the invariants. -/
theorem Inv.perform {a : HostAction} {s t : State} (hs : Inv s) (h : perform a s = .next t) : Inv t := by
  cases a with
  | push v => cases h; exact hs.hostPush v
  | command w => exact hs.hostCommand h
  | read target => cases h; exact ⟨hs.block, hs.frameCap⟩
  | reset => cases h; exact ⟨Block.inv_reset s.frameCap, hs.frameCap⟩

/-- Settles O39: a step is nothing at all or one host action, which keeps the invariants. -/
theorem stepKeepsTheInvariants : Obligations.StepKeepsTheInvariants := by
  intro s t hs h
  obtain ⟨-, hstep⟩ | ⟨a, rest, -, hstep⟩ := step_cases s
  · cases hstep.symm.trans h
    exact hs
  · have hs' : Inv { s with pending := rest } := ⟨hs.block, hs.frameCap⟩
    exact hs'.perform (hstep.symm.trans h)

/-! ## Reset (R25) -/

/-- Settles O38: the block after reset meets the invariants whatever `FRAME_CAP` is. -/
theorem resetMeetsTheInvariants : Obligations.ResetMeetsTheInvariants :=
  fun cap hcap => ⟨Block.inv_reset cap, hcap⟩

/-- `CLOSE` is admitted in both modes and leaves the reset block. -/
theorem exec_closeCall (s : State) : exec .closeCall s = .next (s.doneWith Block.reset) :=
  exec_of_done rfl rfl rfl

/-- Settles O12: in all three cases the block is `Block.reset`, which holds the values of R25. -/
theorem resetAndCloseValues : Obligations.ResetAndCloseValues := by
  intro b hb
  have hreset : b = Block.reset := by
    obtain rfl | ⟨s, t, rest, hp, hstep, rfl⟩ | ⟨s, t, hclose, rfl⟩ := hb
    · rfl
    · cases (step_of_pending hp).symm.trans hstep
      rfl
    · cases (exec_closeCall s).symm.trans hclose
      rfl
  subst hreset
  exact ⟨fun i => Vector.getElem_replicate i.isLt, fun i => Vector.getElem_replicate i.isLt,
    rfl, rfl, rfl, rfl, rfl, rfl, rfl, rfl⟩

/-! ## The cursor in a call (R19) -/

/-- A command of a call consumes some of the window (none where it leaves the cursor), or is `LIMIT`, which cuts its end. -/
theorem Writes.cursor {b b' : Block} {i : Instr} (hw : Writes b i b') (hwin : b.off.toNat + b.rem.toNat ≤ b.flen.toNat)
    (ho : i ≠ .openCall) (hc : i ≠ .closeCall) :
    (∃ n ≤ b.rem.toNat, b'.off.toNat = b.off.toNat + n ∧ b'.rem.toNat = b.rem.toNat - n) ∨
    (∃ n : Half, i = .limit n ∧ n.toNat ≤ b.rem.toNat ∧ b'.off = b.off ∧ b'.rem = n) := by
  cases hw with
  | openCall => exact absurd rfl ho
  | closeCall => exact absurd rfl hc
  | field v _ _ hn =>
    exact .inl ⟨_, hn, Block.consume_cursor (Block.writeReg_off b _ v) (Block.writeReg_rem b _ v) hwin hn⟩
  | rda s _ hn => exact .inl ⟨_, hn, Block.consume_cursor (Block.writeArr_off b s) (Block.writeArr_rem b s) hwin hn⟩
  | skip hn => exact .inl ⟨_, hn, Block.consume_cursor rfl rfl hwin hn⟩
  | limit hn => exact .inr ⟨_, rfl, hn, rfl, rfl⟩
  | nop | reg | ckclr | ckadd | cksum => exact .inl ⟨0, Nat.zero_le _, rfl, rfl⟩

/-- Settles O42: consuming keeps the window's end, `LIMIT` moves it down, and an exception leaves the cursor. -/
theorem cursorOnlyAdvances : Obligations.CursorOnlyAdvances := by
  intro i s t hs ho hc h
  obtain ⟨e, rfl, -⟩ | ⟨b, rfl, -, -, hw⟩ := exec_outcome h
  · exact ⟨Nat.le_refl _, Nat.le_refl _, Nat.le_refl _, fun _ => rfl⟩
  · rw [State.doneWith_block]
    obtain ⟨n, hn, hoff, hrem⟩ | ⟨n, rfl, hn, hoff, hrem⟩ := hw.cursor hs.block.window ho hc
    · exact ⟨by omega, by omega, by omega, fun _ => by omega⟩
    · rw [hoff, hrem]
      exact ⟨Nat.le_refl _, hn, Nat.add_le_add_left hn _, fun hl => absurd rfl (hl n)⟩

/-! ## What a command leaves unchanged (R23) -/

section
variable {b b' : Block} {i : Instr} (hw : Writes b i b') (hc : i ≠ .closeCall)
include hw

include hc in
theorem Writes.reg_frame {r : Reg} (hr : destReg i ≠ some r) : b'.x[r] = b.x[r] := by
  have other {rd : Reg} (c : Block) (v : Word) (hd : destReg i = some rd) : (c.writeReg rd v).x[r] = c.x[r] :=
    c.readReg_writeReg_other rd r v fun e => hr (e ▸ hd)
  cases hw with
  | closeCall => exact absurd rfl hc
  | reg v hd => exact other b v hd
  | field v hd => exact other b v hd
  | cksum acc v => exact other (b.setAccumulator acc) v rfl
  | nop | openCall | rda | skip | limit | ckclr | ckadd => simp

include hc in
theorem Writes.arr_frame (hn : ∀ n, i ≠ .rda n) : b'.arr = b.arr ∧ b'.alen = b.alen := by
  cases hw with
  | closeCall => exact absurd rfl hc
  | rda => exact absurd rfl (hn _)
  | nop | openCall | reg | field | skip | limit | ckclr | ckadd | cksum => exact ⟨rfl, rfl⟩

include hc in
theorem Writes.fb_frame : b'.fb = b.fb ∧ b'.flen = b.flen := by
  cases hw with
  | closeCall => exact absurd rfl hc
  | nop | openCall | reg | field | rda | skip | limit | ckclr | ckadd | cksum => simp

include hc in
theorem Writes.cursor_frame (hn : windowNeed i = none) (ho : i ≠ .openCall) : b'.off = b.off ∧ b'.rem = b.rem := by
  cases hw with
  | openCall => exact absurd rfl ho
  | closeCall => exact absurd rfl hc
  | field v _ hneed => cases hneed.symm.trans hn
  | rda | skip | limit => cases hn
  | nop | reg | ckclr | ckadd | cksum => exact ⟨rfl, rfl⟩

include hc in
theorem Writes.accumulator_frame (hk : i ≠ .ckclr) (hr : regionRegs i = none) : b'.sum = b.sum ∧ b'.lane = b.lane := by
  cases hw with
  | closeCall => exact absurd rfl hc
  | ckclr => exact absurd rfl hk
  | ckadd | cksum => cases hr
  | nop | openCall | reg | field | rda | skip | limit => simp

include hc in
theorem Writes.status_frame (ho : i ≠ .openCall) : b'.status = b.status := by
  cases hw with
  | openCall => exact absurd rfl ho
  | closeCall => exact absurd rfl hc
  | nop | reg | field | rda | skip | limit | ckclr | ckadd | cksum => simp

include hc in
/-- Of STATUS a completed command changes bit 7 at most, and that by `OPEN`. -/
theorem Writes.status_bit_frame {k : Nat} (hk : i = .openCall → k ≠ 7) : b'.status.getLsbD k = b.status.getLsbD k := by
  by_cases ho : i = .openCall
  · subst ho
    cases hw with
    | openCall => exact (Block.setFlag_getLsbD _ .act k).trans (by simp [Flag.bit, hk rfl])
    | reg _ hd => cases hd
    | field _ hd => cases hd
  · rw [hw.status_frame hc ho]

end

/-- Settles O44: an exception writes no register, and the rule's writes are framed by their shape. -/
theorem registerFrame : Obligations.RegisterFrame := by
  intro i s t hc h
  obtain ⟨e, rfl, -⟩ | ⟨b, rfl, -, -, hw⟩ := exec_outcome h
  · exact ⟨fun _ _ => rfl, fun _ => ⟨rfl, rfl⟩⟩
  · exact ⟨fun _ hr => hw.reg_frame hc hr, fun hn => hw.arr_frame hc hn⟩

/-- Settles O45: no shape but that of `CLOSE` writes the frame, and only those with a window check move the cursor. -/
theorem frameStoreAndCursorFrame : Obligations.FrameStoreAndCursorFrame := by
  intro i s t hc h
  obtain ⟨e, rfl, -⟩ | ⟨b, rfl, -, -, hw⟩ := exec_outcome h
  · exact ⟨fun _ => rfl, rfl, fun _ _ => ⟨rfl, rfl⟩, rfl⟩
  · obtain ⟨hfb, hflen⟩ := hw.fb_frame hc
    exact ⟨fun a => congrArg (Memory.read · a) hfb, hflen, fun hn ho => hw.cursor_frame hc hn ho, rfl⟩

/-- No exception completes with DONE (60_exceptions.md R110). -/
theorem takeException_results_ne_done (e : Exn) (s : State) :
    (takeException e s).results ≠ s.results ++ [.completed .done] := by
  rw [takeException_results]
  intro h
  have hcode : e.code = .done := by simpa using h
  cases e <;> cases hcode

/-- An exception's bit is one of the bits 0 to 2. -/
theorem takeException_status_bit (e : Exn) (s : State) {k : Nat} (hk : 3 ≤ k) :
    (takeException e s).block.status.getLsbD k = s.block.status.getLsbD k := by
  have := e.flag_bit_lt
  rw [takeException_block, Block.setFlag_getLsbD, decide_eq_false (by omega), Bool.or_false]

/-- Settles O46: an exception sets one of the bits 0 to 2 and completes with another code than DONE. -/
theorem accumulatorAndStatusFrame : Obligations.AccumulatorAndStatusFrame := by
  intro i s t hc h
  obtain ⟨e, rfl, -⟩ | ⟨b, rfl, -, -, hw⟩ := exec_outcome h
  · exact ⟨fun _ _ => ⟨rfl, rfl⟩, fun _ hdone => absurd hdone (takeException_results_ne_done e s),
      fun _ hk _ => takeException_status_bit e s hk⟩
  · exact ⟨fun hk hr => hw.accumulator_frame hc hk hr, fun ho _ => hw.status_frame hc ho,
      fun _ _ hk => hw.status_bit_frame hc hk⟩

end Sys2Proof.Machine
end

section
/-! The statements of 20_memory.md: the host actions (R42 to R45), the frame in a call (R47), the view of a skipped region
(R52), and the byte and bit order of a value read (R35, R36). -/

namespace Sys2Proof.Machine

/-! ## HostPush (R43, R114) -/

/-- Settles O10: of the two ways a push can end (`hostPush_cases`), the accepted one writes the frame store at FLEN,
where alone it reads otherwise than before. -/
theorem hostPushAppendsOrRefuses : Obligations.HostPushAppendsOrRefuses := by
  intro s b rest hp _
  have hstep : step s = .next (hostPush b { s with pending := rest }) := step_of_pending hp
  rw [hstep]
  obtain ⟨hidle, hroom, hpush⟩ | ⟨hno, hpush⟩ := hostPush_cases b { s with pending := rest }
  · refine ⟨fun _ => ⟨s.block.fb.write s.block.flen.toNat b, ?_, Memory.read_write_same _ _ b,
      fun a ha => Memory.read_write_other _ _ a b ha⟩, fun h => absurd ⟨hidle, hroom⟩ h⟩
    have hflen : s.block.flen + 1 = BitVec.ofNat 16 (s.block.flen.toNat + 1) := by
      rw [BitVec.ofNat_add, BitVec.ofNat_toNat, BitVec.setWidth_eq]
      rfl
    rw [hpush, hflen]
  · exact ⟨fun h => absurd h hno, fun _ => congrArg Host.Outcome.next hpush⟩

/-! ## The frame in a call (R47) -/

/-- No command but `CLOSE` writes the frame, however it completes. -/
theorem exec_frame {i : Instr} {s t : State} (hc : i ≠ .closeCall) (h : exec i s = .next t) :
    t.block.fb = s.block.fb ∧ t.block.flen = s.block.flen := by
  obtain ⟨e, rfl, -⟩ | ⟨b, rfl, -, -, hw⟩ := exec_outcome h
  · exact ⟨rfl, rfl⟩
  · exact hw.fb_frame hc

theorem hostCommand_frame {w : Word} {s t : State} (hc : decode w ≠ .ok .closeCall) (h : hostCommand w s = .next t) :
    t.block.fb = s.block.fb ∧ t.block.flen = s.block.flen := by
  obtain ⟨-, hw⟩ | ⟨i, hi, hw⟩ := hostCommand_cases w s
  · cases hw.symm.trans h
    exact ⟨rfl, rfl⟩
  · exact exec_frame (fun hclose => hc (hclose ▸ hi)) (hw.symm.trans h)

/-- A push in ACTIVE is refused. -/
theorem hostPush_frame {s : State} (ha : s.block.active = true) (b : Byte) :
    (hostPush b s).block.fb = s.block.fb ∧ (hostPush b s).block.flen = s.block.flen := by
  obtain ⟨hidle, -, -⟩ | ⟨-, h⟩ := hostPush_cases b s
  · cases hidle.symm.trans ha
  · rw [h]
    exact ⟨rfl, rfl⟩

/-- In ACTIVE each host action but a reset and a `CLOSE` leaves the frame. -/
theorem perform_frame {a : HostAction} {s t : State} (ha : s.block.active = true) (hr : a ≠ .reset)
    (hc : ∀ w, a = .command w → decode w ≠ .ok .closeCall) (h : perform a s = .next t) :
    t.block.fb = s.block.fb ∧ t.block.flen = s.block.flen := by
  cases a with
  | push b => cases h; exact hostPush_frame ha b
  | command w => exact hostCommand_frame (hc w rfl) h
  | read target => cases h; exact ⟨rfl, rfl⟩
  | reset => exact absurd rfl hr

/-- Settles O41: a step is nothing at all or one host action, which leaves the frame unless it ends the call. -/
theorem frameIsImmutableInACall : Obligations.FrameIsImmutableInACall := by
  intro s t ha hend h
  have hframe : t.block.fb = s.block.fb ∧ t.block.flen = s.block.flen := by
    obtain ⟨-, hstep⟩ | ⟨a, rest, hp, hstep⟩ := step_cases s
    · cases hstep.symm.trans h
      exact ⟨rfl, rfl⟩
    · have hhead : s.pending.head? = some a := by rw [hp, List.head?_cons]
      refine perform_frame (s := { s with pending := rest }) ha ?_ ?_ (hstep.symm.trans h)
      · rintro rfl
        exact hend (.inl hhead)
      · rintro w rfl hd
        exact hend (.inr ⟨w, hhead, hd⟩)
  obtain ⟨hfb, hflen⟩ := hframe
  exact ⟨hflen, hfb, fun a => by rw [hfb]⟩

/-! ## Byte and bit order of a value (R35, R36) -/

/-- The first byte stands above the others, with 8 bits for each of them. -/
theorem be_cons (b : Byte) (s : List Byte) : be (b :: s) = 2 ^ (8 * s.length) * b.toNat + be s := by
  rw [be, Nat.mul_comm, Nat.pow_mul]

theorem be_lt (s : List Byte) : be s < 2 ^ (8 * s.length) := by
  induction s with
  | nil => decide
  | cons b s ih =>
    have hb : b.toNat + 1 ≤ 2 ^ 8 := b.isLt
    calc be (b :: s) < 2 ^ (8 * s.length) * (b.toNat + 1) := by rw [be_cons, Nat.mul_succ]; omega
      _ ≤ 2 ^ (8 * s.length) * 2 ^ 8 := Nat.mul_le_mul_left _ hb
      _ = 2 ^ (8 * (b :: s).length) := by rw [← Nat.pow_add, List.length_cons, Nat.mul_succ]

/-- A group of at most four bytes fits a general register. -/
theorem fieldValue_toNat {s : List Byte} (hs : s.length ≤ 4) : (fieldValue s).toNat = be s := by
  have hfit : be s < 2 ^ 32 := Nat.lt_of_lt_of_le (be_lt s) (Nat.pow_le_pow_right (by decide) (by omega))
  rw [fieldValue, BitVec.toNat_ofNat, Nat.mod_eq_of_lt hfit]

@[simp] theorem byteBits_length (b : Byte) : (byteBits b).length = 8 := rfl

theorem byteBits_getElem? (b : Byte) {k : Nat} (hk : k < 8) : (byteBits b)[k]? = some (b.getLsbD (7 - k)) := by
  rw [byteBits, List.getElem?_map, List.getElem?_range hk, Option.map_some]

@[simp] theorem wireBits_cons (b : Byte) (s : List Byte) : wireBits (b :: s) = byteBits b ++ wireBits s :=
  List.flatMap_cons

/-- The bits of a group stand on the wire from the most significant bit of its big-endian value down, for any length. -/
theorem wireBits_getElem? (s : List Byte) {k : Nat} (hk : k < 8 * s.length) :
    (wireBits s)[k]? = some ((be s).testBit (8 * s.length - 1 - k)) := by
  induction s generalizing k with
  | nil => exact absurd hk (Nat.not_lt_zero k)
  | cons b s ih =>
    rw [List.length_cons] at hk ⊢
    rw [wireBits_cons, be_cons, Nat.testBit_two_pow_mul_add _ (be_lt s)]
    by_cases hfirst : k < 8
    · rw [List.getElem?_append_left (by simpa using hfirst), byteBits_getElem? b hfirst, if_neg (by omega),
        BitVec.getLsbD]
      congr 2
      omega
    · rw [List.getElem?_append_right (by simpa using hfirst), byteBits_length, ih (by omega), if_pos (by omega)]
      congr 2
      omega

/-- Settles O55: a value read is its group's big-endian number, whose bits are the wire's. -/
theorem fieldBitsAreWireBits : Obligations.FieldBitsAreWireBits := by
  intro s k hs hk
  have hbit : (fieldValue s).getLsbD (8 * s.length - 1 - k) = (be s).testBit (8 * s.length - 1 - k) := by
    rw [BitVec.getLsbD, fieldValue_toNat hs]
  rw [hbit, wireBits_getElem? s hk]

/-! ## Reads of different widths (R35) -/

theorem Memory.readSpan_cons {m : Memory} {a n : Nat} {v : Byte} {s : List Byte} (hv : m.read a = some v)
    (hs : m.readSpan (a + 1) n = some s) : m.readSpan a (n + 1) = some (v :: s) := by
  rw [Memory.readSpan, hv, hs]

/-- The frame holds a byte at every offset below FLEN. -/
theorem Block.FrameOk.exists_read {b : Block} (h : b.FrameOk) {a : Nat} (ha : a < b.flen.toNat) :
    ∃ v, b.fb.read a = some v :=
  Option.isSome_iff_exists.mp ((h.read_isSome a).mpr ha)

/-- `RDU8` in ACTIVE with a byte left. -/
theorem exec_rdu8 {s : State} {v : Byte} (rd : Reg) (ha : s.block.active = true) (hn : 1 ≤ s.block.rem.toNat)
    (hv : s.block.fb.read s.block.off.toNat = some v) :
    exec (.rdu8 rd) s = .next (s.doneWith ((s.block.writeReg rd (fieldValue [v])).consume 1)) :=
  exec_of_done rfl ha (Block.readWindow_eq hn (Memory.readSpan_cons hv rfl))

/-- `RDU16` in ACTIVE with two bytes left. -/
theorem exec_rdu16 {s : State} {v w : Byte} (rd : Reg) (ha : s.block.active = true) (hn : 2 ≤ s.block.rem.toNat)
    (hv : s.block.fb.read s.block.off.toNat = some v) (hw : s.block.fb.read (s.block.off.toNat + 1) = some w) :
    exec (.rdu16 rd) s = .next (s.doneWith ((s.block.writeReg rd (fieldValue [v, w])).consume 2)) :=
  exec_of_done rfl ha (Block.readWindow_eq hn (Memory.readSpan_cons hv (Memory.readSpan_cons hw rfl)))

/-- A field's register holds its value after the field is consumed. -/
theorem Block.field_reg (b : Block) (rd : Reg) (v : Word) (n : Nat) : ((b.writeReg rd v).consume n).x[rd] = v :=
  b.readReg_writeReg_same rd v

theorem fieldValue_singleton (v : Byte) : (fieldValue [v]).toNat = v.toNat := by
  rw [fieldValue_toNat (by simp)]
  simp [be]

theorem fieldValue_pair (v w : Byte) : (fieldValue [v, w]).toNat = 256 * v.toNat + w.toNat := by
  rw [fieldValue_toNat (by simp)]
  simp [be, Nat.mul_comm]

/-- Settles O56: the two `RDU8` read the bytes `b0` and `b1` that `RDU16` reads as one group, and consuming them one by one
is consuming both. -/
theorem mixedWidthReadsSeeTheSameBytes : Obligations.MixedWidthReadsSeeTheSameBytes := by
  intro s r0 r1 hs ha hn
  have hwin := hs.block.window
  obtain ⟨b0, h0⟩ := hs.block.frame.exists_read (a := s.block.off.toNat) (by omega)
  obtain ⟨b1, h1⟩ := hs.block.frame.exists_read (a := s.block.off.toNat + 1) (by omega)
  obtain ⟨hoff, hrem⟩ := Block.consume_cursor (b := s.block) (c := s.block.writeReg r0 (fieldValue [b0])) (n := 1)
    rfl rfl hwin (by omega)
  have ht := exec_rdu8 r0 ha (by omega) h0
  have hu := exec_rdu8 (s := s.doneWith ((s.block.writeReg r0 (fieldValue [b0])).consume 1)) r1 ha
    (by rw [State.doneWith_block]; omega) (by rw [State.doneWith_block, hoff]; exact h1)
  have hv := exec_rdu16 r0 ha hn h0 h1
  refine ⟨_, _, _, ht, hu, hv, ?_, ?_, ?_⟩
  · simp only [State.doneWith_block, Block.field_reg, fieldValue_singleton, fieldValue_pair]
  · simp [BitVec.add_assoc]
  · simp [BitVec.sub_sub]

/-! ## The view of a skipped region (R52) -/

/-- Settles O58: a `SKIP` that completes has passed its window check, so its bytes lie in the window, which the
invariants keep in the frame. -/
theorem viewsStayInTheFrame : Obligations.ViewsStayInTheFrame := by
  intro s t n hs h hdone
  have ht : Inv t := hs.exec h
  have hwin := hs.block.window
  obtain ⟨e, rfl, -⟩ | ⟨b, rfl, -, -, hw⟩ := exec_outcome h
  · exact absurd hdone (takeException_results_ne_done e s)
  · cases hw with
    | skip hn =>
      obtain ⟨hoff, -⟩ := Block.consume_cursor (c := s.block) rfl rfl hwin hn
      exact ⟨by omega, hoff, ht.block.window⟩
    | reg _ hd => cases hd
    | field _ hd => cases hd

/-! ## HostCommand and the empty stream (R42, R44) -/

/-- HostCommand of a word that decodes runs its instruction. -/
theorem hostCommand_of_decode {w : Word} {i : Instr} (s : State) (h : decode w = .ok i) : hostCommand w s = exec i s := by
  rw [hostCommand, h]

/-- Settles O8: the step performs HostCommand of the word, which runs the instruction it decodes to. -/
theorem stepRunsDecodedCommand : Obligations.StepRunsDecodedCommand := by
  intro s w rest i hp hd
  calc step s = hostCommand w { s with pending := rest } := step_of_pending hp
    _ = exec i { s with pending := rest } := hostCommand_of_decode _ hd

/-- Settles O9: of the two things a step can be (`step_cases`), only the first has an empty stream. -/
theorem noActionChangesNothing : Obligations.NoActionChangesNothing := by
  intro s hp
  obtain ⟨-, hstep⟩ | ⟨a, rest, hsome, -⟩ := step_cases s
  · exact hstep
  · cases hp.symm.trans hsome

/-! ## HostRead (R45) -/

/-- No two control registers share a number (10_state.md R22). -/
theorem Csr.eq_of_number_eq {c d : Csr} (h : c.number = d.number) : c = d := by
  have hc := Csr.ofNumber?_number c
  rw [h, Csr.ofNumber?_number d] at hc
  exact (Option.some.inj hc).symm

/-- A control register reads as the register of its number, whose value zero-extension keeps (10_state.md R22). -/
theorem Block.readCsr_toNat_of_number (b : Block) (c : Csr) :
    (c.number = 0 → (b.readCsr c).toNat = b.status.toNat) ∧
    (c.number = 1 → (b.readCsr c).toNat = b.off.toNat) ∧
    (c.number = 2 → (b.readCsr c).toNat = b.rem.toNat) ∧
    (c.number = 3 → (b.readCsr c).toNat = b.flen.toNat) ∧
    (c.number = 4 → (b.readCsr c).toNat = b.sum.toNat) ∧
    (c.number = 5 → (b.readCsr c).toNat = b.lane.toNat) ∧
    (c.number = 6 → (b.readCsr c).toNat = b.alen.toNat) := by
  have named {k : Nat} (d : Csr) (hd : (b.readCsr d).toNat = k) (hc : c.number = d.number) : (b.readCsr c).toNat = k :=
    Csr.eq_of_number_eq hc ▸ hd
  have widen {n : Nat} (v : BitVec n) (hn : n ≤ 32) : (v.setWidth 32).toNat = v.toNat := BitVec.toNat_setWidth_of_le hn
  exact ⟨named .status (widen _ (by decide)), named .off (widen _ (by decide)), named .rem (widen _ (by decide)),
    named .flen (widen _ (by decide)), named .sum (widen _ (by decide)), named .lane (widen _ (by decide)),
    named .alen (widen _ (by decide))⟩

/-- Settles O11: HostRead answers `readTarget`, which gives for each kind of target its current value. -/
theorem hostReadReturnsTheValue : Obligations.HostReadReturnsTheValue := by
  intro s t rest hp
  refine ⟨s.block.readTarget t, step_of_pending hp, ?_, ?_, ?_⟩
  · rintro i rfl
    rfl
  · rintro i rfl
    rfl
  · rintro c rfl
    exact ⟨s.block.readCsr c, rfl, s.block.readCsr_toNat_of_number c⟩

end Sys2Proof.Machine
end

section
/-! The statements of 30_encoding.md: decode and encode are inverse on legal words (R58), and which words are illegal
(R59 to R61). Both rest on the three tests of the decoder, `decode_eq_ok` and its converse `decode_of_fits`. -/

namespace Sys2Proof

open Machine

/-! ## Decode after encode (R58) -/

/-- Every instruction's word fits the fixed bits of its row (R59). -/
theorem fixedBits_encode (i : Instr) : Laws.FixedBits.Statement i := by
  cases i with
  | nop => exact Laws.FixedBits.nop
  | openCall => exact Laws.FixedBits.openCall
  | closeCall => exact Laws.FixedBits.closeCall
  | li rd imm16 => exact Laws.FixedBits.li rd imm16
  | rdc rd csr => exact Laws.FixedBits.rdc rd csr
  | ext rd rs1 lsb width => exact Laws.FixedBits.ext rd rs1 lsb width
  | rdu8 rd => exact Laws.FixedBits.rdu8 rd
  | rdu16 rd => exact Laws.FixedBits.rdu16 rd
  | rdu32 rd => exact Laws.FixedBits.rdu32 rd
  | rda n => exact Laws.FixedBits.rda n
  | skip n => exact Laws.FixedBits.skip n
  | limit n => exact Laws.FixedBits.limit n
  | ckclr => exact Laws.FixedBits.ckclr
  | ckadd rs1 rs2 => exact Laws.FixedBits.ckadd rs1 rs2
  | ckget rd => exact Laws.FixedBits.ckget rd
  | ckvfy rd => exact Laws.FixedBits.ckvfy rd
  | cksum rd rs1 rs2 => exact Laws.FixedBits.cksum rd rs1 rs2

/-- A word that passes the three tests of R58 decodes: the converse of `decode_eq_ok`. -/
theorem decode_of_fits {w : Word} {i : Instr} (hop : opField w = i.op.code)
    (hfit : w &&& i.op.format.mask = i.op.matchWord) (hi : operands i.op w = some i) (hwf : i.wellFormed = true) :
    decode w = .ok i := by
  simp only [decode, hop, Op.ofCode?_code, hfit, hi, hwf, if_true]

/-- Settles O1: an instruction's word has its opcode, fits its row and holds its operands. -/
theorem decodeOfEncode : Obligations.DecodeOfEncode := by
  intro i hwf
  obtain ⟨hop, hfit⟩ := fixedBits_encode i
  exact decode_of_fits hop hfit (operands_encode i) hwf

/-! ## Encode after decode (R58, R59) -/

/-- The word with opcode `c` and those fields of `w` that a format leaves free, every other bit 0 (R55). -/
def Format.freeFields (f : Format) (c : BitVec 8) (w : Word) : Word :=
  match f with
  | .N => assemble c 0 0 0
  | .D => assemble c (rdField w) 0 0
  | .I => assemble c (rdField w) 0 (immField w)
  | .U => assemble c 0 0 (immField w)
  | .S => assemble c 0 (rs1Field w) (lowRs2 (rs2Field w))
  | .R => assemble c (rdField w) (rs1Field w) (lowRs2 (rs2Field w))
  | .X => assemble c (rdField w) (rs1Field w) (lowField (lsbField w) (widthField w))

/-- A word that fits its row is made of its opcode and its format's free fields. -/
theorem freeFields_of_fits {w : Word} {op : Op} (h : w &&& op.format.mask = op.matchWord) :
    op.format.freeFields op.code w = w := by
  obtain ⟨hop, hrd, hrs1, hlow⟩ := (fits_iff w op).mp h
  calc op.format.freeFields op.code w
    _ = assemble (opField w) (rdField w) (rs1Field w) (immField w) := by
      rw [hop]
      generalize op.format = f at hrd hrs1 hlow
      cases f with
      | N => rw [reg_eq_zero_of_and hrd, reg_eq_zero_of_and hrs1, half_eq_zero_of_and hlow, Format.freeFields]
      | D => rw [reg_eq_zero_of_and hrs1, half_eq_zero_of_and hlow, Format.freeFields]
      | I => rw [reg_eq_zero_of_and hrs1, Format.freeFields]
      | U => rw [reg_eq_zero_of_and hrd, reg_eq_zero_of_and hrs1, Format.freeFields]
      | S => rw [reg_eq_zero_of_and hrd, low_eq_lowRs2 hlow, Format.freeFields]
      | R => rw [low_eq_lowRs2 hlow, Format.freeFields]
      | X => rw [low_eq_lowField hlow, Format.freeFields]
    _ = w := assemble_fields w

/-- The word of the operands read out of `w` has the free fields of `w`. -/
theorem encode_of_operands {op : Op} {w : Word} {i : Instr} (h : operands op w = some i) :
    encode i = op.format.freeFields op.code w := by
  cases op with
  | rdc =>
    obtain ⟨c, hc, rfl⟩ := Option.map_eq_some_iff.mp h
    rw [encode, Csr.ofNumber?_eq_some hc]
    rfl
  | _ => cases h; rfl

/-- Settles O2: a word that decodes fits its row, so it is its opcode and its free fields, and these the instruction's
word has too. -/
theorem encodeOfDecode : Obligations.EncodeOfDecode := by
  intro w i h
  obtain ⟨-, hfit, hi, hwf⟩ := decode_eq_ok h
  exact ⟨hwf, (encode_of_operands hi).trans (freeFields_of_fits hfit)⟩

/-! ## Illegal words (R59 to R61) -/

/-- HostCommand of an illegal word, as the next step (R100). -/
theorem step_of_isIllegal {w : Word} {s : State} {rest : List HostAction} (hw : IsIllegal w)
    (hp : s.pending = .command w :: rest) : step s = .next ({ s with pending := rest }.onlySets 1 .ill) := by
  obtain ⟨-, hc⟩ | ⟨i, hi, -⟩ := hostCommand_cases w { s with pending := rest }
  · exact (step_of_pending hp).trans hc
  · exact absurd hi (hw i)

/-- The four ranges of reserved opcodes (R60). -/
abbrev IsReserved (n : Nat) : Prop :=
  (0x03 ≤ n ∧ n ≤ 0x0F) ∨ (0x13 ≤ n ∧ n ≤ 0x1F) ∨ (0x26 ≤ n ∧ n ≤ 0x2F) ∨ 0x35 ≤ n

theorem Op.code_not_reserved (op : Op) : ¬ IsReserved op.code.toNat := by
  cases op <;> decide

theorem isIllegal_of_reserved {w : Word} (h : IsReserved (w.toNat / 2 ^ 24)) : IsIllegal w := by
  intro i hi
  obtain ⟨hop, -⟩ := decode_eq_ok hi
  rw [← opField_toNat, hop] at h
  exact i.op.code_not_reserved h

/-- Settles O4: no row has a reserved opcode, and a word that decodes to `NOP` is the word of `NOP`. -/
theorem reservedOpcodesAreIllegal : Obligations.ReservedOpcodesAreIllegal := by
  refine ⟨fun w h => ?_, fun w => ⟨fun h => ?_, ?_⟩⟩
  · have hw : IsIllegal w := isIllegal_of_reserved h
    exact ⟨hw, fun _ _ => step_of_isIllegal hw⟩
  · exact (encodeOfDecode w .nop h).2.symm
  · rintro rfl
    exact decodeOfEncode .nop rfl

/-- Below the opcode a row's match word is 0 (R57). -/
theorem Op.matchWord_getLsbD (op : Op) {k : Nat} (hk : k < 24) : op.matchWord.getLsbD k = false := by
  rw [Op.matchWord, BitVec.getLsbD_append, if_pos hk, BitVec.getLsbD_zero]

/-- Under its row's mask a word that decodes is the row's match word, so it has no 1 where the mask has one below the
opcode. -/
theorem isIllegal_of_strayBit {w : Word} {op : Op} {k : Nat} (hop : opField w = op.code) (hk : k < 24)
    (hmask : op.format.mask.getLsbD k = true) (hbit : w.getLsbD k = true) : IsIllegal w := by
  intro i hi
  obtain ⟨hcode, hfit, -⟩ := decode_eq_ok hi
  obtain rfl := Op.code_injective _ _ (hop.symm.trans hcode)
  have hclear : (w &&& i.op.format.mask).getLsbD k = false := by rw [hfit, Op.matchWord_getLsbD _ hk]
  rw [BitVec.getLsbD_and, hbit, hmask] at hclear
  cases hclear

/-- Settles O5, by `isIllegal_of_strayBit`; the example is a word of `RDU8` with bit 16, of the unused `rs1`, set. -/
theorem strayBitsAreIllegal : Obligations.StrayBitsAreIllegal := by
  refine ⟨fun w op k hop hk hmask hbit => ?_, isIllegal_of_strayBit (op := .rdu8) (k := 16) rfl (by decide) rfl rfl⟩
  exact isIllegal_of_strayBit (BitVec.eq_of_toNat_eq ((opField_toNat w).trans hop)) hk hmask hbit

/-! ## Operand values (R61) -/

/-- Of the words of instructions, the illegal ones are those of ill-formed instructions. -/
theorem isIllegal_encode_iff (i : Instr) : IsIllegal (encode i) ↔ i.wellFormed = false := by
  constructor
  · intro h
    exact Bool.eq_false_iff.mpr fun hwf => h i (decodeOfEncode i hwf)
  · intro hwf j hj
    obtain ⟨hop, -, hi, hjwf⟩ := decode_eq_ok hj
    have hrow : i.op = j.op := Op.code_injective _ _ ((fixedBits_encode i).1.symm.trans hop)
    rw [← hrow, operands_encode] at hi
    cases hi
    exact Bool.false_ne_true (hwf.symm.trans hjwf)

/-- A word given as a number is the word assembled from its fields (R54), `base` the part its opcode gives. -/
theorem ofNat_eq_assemble {n : Nat} (base : Nat) {op : BitVec 8} {rd rs1 : Reg} {low : Half}
    (hbase : op.toNat * 2 ^ 24 = base) (h : n = base + rd.val * 2 ^ 20 + rs1.val * 2 ^ 16 + low.toNat) :
    BitVec.ofNat 32 n = assemble op rd rs1 low := by
  rw [h, ← hbase, ← assemble_toNat, BitVec.ofNat_toNat, BitVec.setWidth_eq]

theorem rdaCountOk_eq_false_iff (n : Half) : rdaCountOk n = false ↔ n.toNat = 0 ∨ n.toNat > 16 := by
  rw [rdaCountOk, Bool.and_eq_false_iff, decide_eq_false_iff_not, decide_eq_false_iff_not]
  omega

theorem extFieldOk_eq_false_iff (lsb : BitVec 5) (width : BitVec 6) :
    extFieldOk lsb width = false ↔ width.toNat = 0 ∨ width.toNat > 32 ∨ lsb.toNat + width.toNat > 32 := by
  simp only [extFieldOk, Bool.and_eq_false_iff, decide_eq_false_iff_not]
  omega

/-- `RDA` is illegal at a count the array register cannot hold. -/
theorem isIllegal_rda_iff {n : Nat} (hn : n < 65536) :
    IsIllegal (BitVec.ofNat 32 (0x23000000 + n)) ↔ n = 0 ∨ n > 16 := by
  have himm : (BitVec.ofNat 16 n).toNat = n := by rw [BitVec.toNat_ofNat, Nat.mod_eq_of_lt hn]
  have hw : BitVec.ofNat 32 (0x23000000 + n) = encode (.rda (BitVec.ofNat 16 n)) :=
    ofNat_eq_assemble 0x23000000 (op := Op.rda.code) (rd := 0) (rs1 := 0) rfl (by simp [himm])
  rw [hw, isIllegal_encode_iff, Instr.wellFormed, rdaCountOk_eq_false_iff, himm]

/-- `RDC` is illegal at a number that names no control register: such a word has no operands, and any other is the word
of an instruction. -/
theorem isIllegal_rdc_iff (rd : Reg) {n : Nat} (hn : n < 65536) :
    IsIllegal (BitVec.ofNat 32 (0x11000000 + rd.val * 2 ^ 20 + n)) ↔ n > 6 := by
  have himm : (BitVec.ofNat 16 n).toNat = n := by rw [BitVec.toNat_ofNat, Nat.mod_eq_of_lt hn]
  have hw : BitVec.ofNat 32 (0x11000000 + rd.val * 2 ^ 20 + n) = assemble Op.rdc.code rd 0 (BitVec.ofNat 16 n) :=
    ofNat_eq_assemble 0x11000000 rfl (by simp [himm])
  have hnone : n > 6 ↔ Csr.ofNumber? (BitVec.ofNat 16 n) = none := by rw [Csr.ofNumber?_eq_none, himm]
  rw [hw, hnone]
  constructor
  · intro h
    cases hc : Csr.ofNumber? (BitVec.ofNat 16 n) with
    | none => rfl
    | some c =>
      rw [← Csr.ofNumber?_eq_some hc] at h
      exact absurd (decodeOfEncode (.rdc rd c) rfl) (h _)
  · intro hc i hi
    obtain ⟨hop, -, hops, -⟩ := decode_eq_ok hi
    rw [opField_assemble] at hop
    rw [← Op.code_injective _ _ hop, operands, immField_assemble, hc] at hops
    cases hops

/-- `EXT` is illegal at a field that is empty or not inside the 32-bit source. -/
theorem isIllegal_ext_iff (rd rs1 : Reg) {lsb width : Nat} (hl : lsb < 32) (hwd : width < 64) :
    IsIllegal (BitVec.ofNat 32 (0x12000000 + rd.val * 2 ^ 20 + rs1.val * 2 ^ 16 + lsb * 2 ^ 8 + width)) ↔
      width = 0 ∨ width > 32 ∨ lsb + width > 32 := by
  have hlsb : (BitVec.ofNat 5 lsb).toNat = lsb := by rw [BitVec.toNat_ofNat, Nat.mod_eq_of_lt hl]
  have hwidth : (BitVec.ofNat 6 width).toNat = width := by rw [BitVec.toNat_ofNat, Nat.mod_eq_of_lt hwd]
  have hw : BitVec.ofNat 32 (0x12000000 + rd.val * 2 ^ 20 + rs1.val * 2 ^ 16 + lsb * 2 ^ 8 + width) =
      encode (.ext rd rs1 (BitVec.ofNat 5 lsb) (BitVec.ofNat 6 width)) :=
    ofNat_eq_assemble 0x12000000 (op := Op.ext.code) rfl (by rw [lowField_toNat, hlsb, hwidth, ← Nat.add_assoc])
  rw [hw, isIllegal_encode_iff, Instr.wellFormed, extFieldOk_eq_false_iff, hlsb, hwidth]

/-- Settles O6: the three rows with a limit, the two counts that may be 0, and no other limit on any operand. -/
theorem operandLimits : Obligations.OperandLimits := by
  refine ⟨fun _ => isIllegal_rda_iff, fun rd _ => isIllegal_rdc_iff rd, fun rd rs1 _ _ => isIllegal_ext_iff rd rs1,
    decodeOfEncode (.skip 0) rfl, decodeOfEncode (.limit 0) rfl, fun i hwf h => ?_⟩
  exact h i (decodeOfEncode i hwf)

/-! ## Worked words and pseudo-instructions (R64, R65) -/

/-- Settles O3: the decoder evaluated at each legal word, and the rule each illegal one breaks: a reserved opcode,
`OPEN` with bit 0 set, `EXT` of a field past bit 31, `CKADD` with bit 20 set. -/
theorem workedWordsDecode : Obligations.WorkedWordsDecode := by
  refine ⟨by decide, by decide, by decide, by decide, by decide, by decide, by decide, by decide, by decide,
    ?_, ?_, ?_, ?_⟩
  · exact isIllegal_of_reserved (by decide)
  · exact isIllegal_of_strayBit (op := .openCall) (k := 0) rfl (by decide) rfl rfl
  · exact (isIllegal_encode_iff (.ext 2 1 29 4)).mpr rfl
  · exact isIllegal_of_strayBit (op := .ckadd) (k := 20) rfl (by decide) rfl rfl

/-- `EXTB` names one bit: its word is that of `EXT` with width 1. -/
theorem encode_extb_toNat (rd rs1 : Reg) (bit : BitVec 5) :
    (encode (.extb rd rs1 bit)).toNat = 0x12000001 + rd.val * 2 ^ 20 + rs1.val * 2 ^ 16 + bit.toNat * 2 ^ 8 := by
  rw [Instr.extb, encode, assemble_toNat, lowField_toNat]
  simp only [Instr.op, Op.code, BitVec.ofNat_eq_ofNat, BitVec.toNat_ofNat]
  omega

/-- Settles O7: the three fixed words and four lines of text evaluated, and the word of `EXTB` at every operand. -/
theorem pseudoInstructionWords : Obligations.PseudoInstructionWords :=
  ⟨rfl, rfl, rfl, by decide, by decide, by decide, by decide, encode_extb_toNat⟩

end Sys2Proof
end

section
/-! The checksum as a function (40_checksum_engine.md R69 to R75 and R83). Every statement here is one about the total
`byteTotal` of a sequence: the accumulator and the word-wise checksum both come to its reduced value (R71 (c)). -/

namespace Sys2Proof.Machine

/-! ## The accumulator and the words come to the reduced total (R71) -/

/-- The words of R69 are 16-bit numbers: a high byte and a low one. -/
theorem wordOf_toNat (b c : Byte) :
    (BitVec.ofNat 16 (256 * b.toNat + c.toNat)).toNat = 256 * b.toNat + c.toNat := by
  have := b.isLt
  have := c.isLt
  rw [BitVec.toNat_ofNat, Nat.mod_eq_of_lt (by omega)]

/-- A byte fed in lane 0 adds as the high byte of a word, and the next byte is a low one. -/
theorem ckStep_high {a : Half} {total : Nat} (ha : a.toNat = reduced total) (b : Byte) :
    ∃ a', ckStep (a, 0) b = (a', 1) ∧ a'.toNat = reduced (total + 256 * b.toNat) := by
  have hw : (laneWord 0 b).toNat = 256 * b.toNat := by rw [laneWord_toNat, if_pos rfl]
  exact ⟨_, congrArg (Prod.mk _) (BitVec.sub_zero (1 : BitVec 1)), hw ▸ ocAdd16_reduced a total _ ha⟩

/-- A byte fed in lane 1 adds as the low byte of a word, and the next byte is a high one. -/
theorem ckStep_low {a : Half} {total : Nat} (ha : a.toNat = reduced total) (b : Byte) :
    ∃ a', ckStep (a, 1) b = (a', 0) ∧ a'.toNat = reduced (total + b.toNat) := by
  have hw : (laneWord 1 b).toNat = b.toNat := by rw [laneWord_toNat, if_neg (by decide)]
  exact ⟨_, congrArg (Prod.mk _) (BitVec.sub_self (1 : BitVec 1)), hw ▸ ocAdd16_reduced a total _ ha⟩

/-- Feeding a sequence from lane 0 adds its total, and leaves the parity of its length. -/
theorem ckFeed_reduced (s : List Byte) {a : Half} {total : Nat} (ha : a.toNat = reduced total) :
    (ckFeed (a, 0) s).1.toNat = reduced (total + byteTotal s) ∧ (ckFeed (a, 0) s).2.toNat = s.length % 2 := by
  induction s using byteTotal.induct generalizing a total with
  | case1 => exact ⟨ha, rfl⟩
  | case2 b =>
    obtain ⟨a', hstep, hsum⟩ := ckStep_high ha b
    rw [ckFeed_cons, hstep]
    exact ⟨hsum, rfl⟩
  | case3 b c rest ih =>
    obtain ⟨a₁, hhigh, h₁⟩ := ckStep_high ha b
    obtain ⟨a₂, hlow, h₂⟩ := ckStep_low h₁ c
    obtain ⟨hsum, hlane⟩ := ih h₂
    rw [ckFeed_cons, ckFeed_cons, hhigh, hlow, byteTotal_two, hsum, hlane, List.length_cons, List.length_cons,
      Nat.add_assoc rest.length, Nat.add_mod_right, Nat.add_assoc total, Nat.add_assoc total]
    exact ⟨rfl, rfl⟩

/-- Summing the words of R69 adds the same total. -/
theorem foldl_checksumWords_reduced (s : List Byte) {a : Half} {total : Nat} (ha : a.toNat = reduced total) :
    ((checksumWords s).foldl ocAdd16 a).toNat = reduced (total + byteTotal s) := by
  induction s using byteTotal.induct generalizing a total with
  | case1 => exact ha
  | case2 b =>
    have hw : (BitVec.ofNat 16 (256 * b.toNat)).toNat = 256 * b.toNat := wordOf_toNat b 0
    rw [checksumWords, List.foldl_cons, List.foldl_nil, ocAdd16_reduced a total _ ha, hw, byteTotal]
  | case3 b c rest ih =>
    have hsum := ocAdd16_reduced a total (BitVec.ofNat 16 (256 * b.toNat + c.toNat)) ha
    rw [wordOf_toNat] at hsum
    rw [checksumWords, List.foldl_cons, ih hsum, byteTotal_two, Nat.add_assoc total]

/-- The accumulator's sum in closed form (R71 (c)). -/
theorem ckFeed_sum_toNat (s : List Byte) : (ckFeed (0, 0) s).1.toNat = reduced (byteTotal s) := by
  rw [(ckFeed_reduced s (total := 0) rfl).1, Nat.zero_add]

/-- The document's checksum in closed form (R71 (c)). -/
theorem internetChecksum_toNat (s : List Byte) : (internetChecksum s).toNat = 65535 - reduced (byteTotal s) := by
  rw [internetChecksum, foldl_checksumWords_reduced s (total := 0) rfl, Nat.zero_add, BitVec.toNat_ofNat,
    Nat.mod_eq_of_lt (by omega)]

/-- Settles O47: the accumulator by its steps, the document's function by its words. -/
theorem accumulatorAgreesWithTheChecksum : Obligations.AccumulatorAgreesWithTheChecksum :=
  fun s => ⟨ckFeed_sum_toNat s, (ckFeed_reduced s (total := 0) rfl).2, internetChecksum_toNat s⟩

/-- The checksum is the complement of what the accumulator holds (R80). -/
theorem not_ckFeed_sum (s : List Byte) : ~~~ (ckFeed (0, 0) s).1 = internetChecksum s := by
  apply BitVec.eq_of_toNat_eq
  rw [BitVec.toNat_not, ckFeed_sum_toNat, internetChecksum_toNat]

/-! ## When the sum is 0 (R71, I6) -/

theorem byteTotal_eq_zero_iff (s : List Byte) : byteTotal s = 0 ↔ ∀ b ∈ s, b = 0 := by
  have hbyte (b : Byte) : b.toNat = 0 ↔ b = 0 := (BitVec.toNat_eq (y := 0#8)).symm
  induction s using byteTotal.induct with
  | case1 => simp [byteTotal]
  | case2 b => simp only [byteTotal, Nat.mul_eq_zero, OfNat.ofNat_ne_zero, false_or, hbyte, List.forall_mem_singleton]
  | case3 b c rest ih =>
    simp only [byteTotal_two, Nat.add_eq_zero_iff, Nat.mul_eq_zero, OfNat.ofNat_ne_zero, false_or, hbyte, ih,
      List.forall_mem_cons, and_assoc]

/-- A carry step leaves 0 only of two zeros. -/
theorem ocAdd16_ne_zero {a : Half} (ha : a ≠ 0) (w : Half) : ocAdd16 a w ≠ 0 := by
  intro h
  have hsum : (ocAdd16 a w).toNat = 0 := congrArg BitVec.toNat h
  have hpos : a.toNat ≠ 0 := fun h0 => ha (BitVec.eq_of_toNat_eq h0)
  rw [ocAdd16_toNat] at hsum
  split at hsum <;> omega

theorem ckFeed_sum_ne_zero (s : List Byte) {acc : Accumulator} (ha : acc.1 ≠ 0) : (ckFeed acc s).1 ≠ 0 := by
  induction s generalizing acc with
  | nil => exact ha
  | cons b s ih => exact ih (ocAdd16_ne_zero ha _)

/-- Settles O48: a reduced total is 0 only where the total is, and no carry step brings a nonzero sum back to 0. -/
theorem sumIsZeroOnlyOfZeroBytes : Obligations.SumIsZeroOnlyOfZeroBytes := by
  refine ⟨fun s => ?_, fun acc s ha => ckFeed_sum_ne_zero s ha⟩
  have hsum : (ckFeed (0, 0) s).1 = 0 ↔ (ckFeed (0, 0) s).1.toNat = 0 := BitVec.toNat_eq
  rw [hsum, ckFeed_sum_toNat, reduced_eq_zero_iff, byteTotal_eq_zero_iff]

/-! ## Sequences of one total (R75 a, b, d, f) -/

/-- The checksum depends on the total alone. -/
theorem internetChecksum_congr {s u : List Byte} (h : byteTotal s = byteTotal u) :
    internetChecksum s = internetChecksum u := by
  apply BitVec.eq_of_toNat_eq
  rw [internetChecksum_toNat, internetChecksum_toNat, h]

theorem byteTotal_zeros (n : Nat) : byteTotal (List.replicate n 0) = 0 :=
  (byteTotal_eq_zero_iff _).mpr fun _ => List.eq_of_mem_replicate

/-- Zeros after a sequence add nothing, whether they complete its last word or follow it. -/
theorem byteTotal_append_zeros (s : List Byte) (n : Nat) : byteTotal (s ++ List.replicate n 0) = byteTotal s := by
  induction s using byteTotal.induct with
  | case1 => exact byteTotal_zeros n
  | case2 b =>
    cases n with
    | zero => rfl
    | succ n =>
      rw [List.replicate_succ, List.cons_append, List.nil_append, byteTotal_two, byteTotal_zeros]
      rfl
  | case3 b c rest ih => rw [List.cons_append, List.cons_append, byteTotal_two, byteTotal_two, ih]

/-- An aligned word adds its value. -/
theorem byteTotal_word_append (a b : Byte) (s : List Byte) :
    byteTotal ([a, b] ++ s) = (a ++ b).toNat + byteTotal s := by
  rw [toNat_append_add, List.cons_append, List.cons_append, List.nil_append, byteTotal_two]
  omega

/-- Whole words of zeros at an even index change nothing. -/
theorem internetChecksum_insert_zeros {s : List Byte} (hs : s.length % 2 = 0) (n : Nat) (u : List Byte) :
    internetChecksum (s ++ List.replicate (2 * n) 0 ++ u) = internetChecksum (s ++ u) := by
  apply internetChecksum_congr
  rw [List.append_assoc, byteTotal_append s _ hs, byteTotal_append _ u (by simp), byteTotal_zeros, Nat.zero_add,
    byteTotal_append s u hs]

/-- Settles O51: in each of the four cases the total stays the same. -/
theorem checksumZeroAndSwapFacts : Obligations.ChecksumZeroAndSwapFacts := by
  refine ⟨fun n => ?_, fun s n => internetChecksum_congr (byteTotal_append_zeros s n),
    fun s u n hs => internetChecksum_insert_zeros hs n u, fun p m u a b c d hp hm => ?_⟩
  · apply BitVec.eq_of_toNat_eq
    rw [internetChecksum_toNat, byteTotal_zeros, reduced_zero]
    rfl
  · apply internetChecksum_congr
    simp only [List.append_assoc, byteTotal_append p _ hp, byteTotal_append m _ hm, byteTotal_word_append]
    omega

/-! ## One bit flipped (R75 e) -/

/-- The checksum is 0 exactly where the sum is all ones. -/
theorem internetChecksum_eq_zero_iff (s : List Byte) : internetChecksum s = 0 ↔ reduced (byteTotal s) = 65535 := by
  have hzero : internetChecksum s = 0 ↔ (internetChecksum s).toNat = 0 := BitVec.toNat_eq
  have := reduced_lt (byteTotal s)
  rw [hzero, internetChecksum_toNat]
  omega

/-- A sum is all ones exactly where the total is positive and a multiple of 65535 (R71, R75 (c)). -/
theorem reduced_eq_ones_iff (t : Nat) : reduced t = 65535 ↔ 0 < t ∧ t % 65535 = 0 := by
  unfold reduced
  split <;> omega

/-- What a byte counts for: 256 times where the bytes before it make whole words, else once (R71). -/
def byteWeight (before : List Byte) : Nat := if before.length % 2 = 0 then 256 else 1

theorem byteWeight_cases (p : List Byte) : byteWeight p = 256 ∨ byteWeight p = 1 := by
  unfold byteWeight
  split
  · exact .inl rfl
  · exact .inr rfl

theorem byteWeight_cons_cons (b c : Byte) (p : List Byte) : byteWeight (b :: c :: p) = byteWeight p := by
  rw [byteWeight, byteWeight, List.length_cons, List.length_cons, Nat.add_assoc, Nat.add_mod_right]

/-- A byte adds its value times its weight: apart from that the total is the one with a zero byte in its place. -/
theorem byteTotal_split (p u : List Byte) (b : Byte) :
    byteTotal (p ++ [b] ++ u) = byteTotal (p ++ [0] ++ u) + byteWeight p * b.toNat := by
  induction p using byteTotal.induct with
  | case1 =>
    cases u with
    | nil => simp [byteTotal, byteWeight]
    | cons c u => simp [byteTotal_two, byteWeight]; omega
  | case2 a => simp [byteTotal_two, byteWeight]; omega
  | case3 a c rest ih =>
    rw [byteWeight_cons_cons]
    simp only [List.cons_append, byteTotal_two, ih]
    omega

/-- Where no bit is 1 in both, exclusive or is a sum. -/
theorem xor_eq_add_of_and_eq_zero {w : Nat} {x y : BitVec w} (h : x &&& y = 0#w) : x ^^^ y = x + y := by
  rw [BitVec.add_eq_or_of_and_eq_zero x y h]
  ext i hi
  have hbit : (x[i] && y[i]) = false := by rw [← BitVec.getElem_and, h, BitVec.getElem_zero]
  rw [BitVec.getElem_xor, BitVec.getElem_or]
  cases hx : x[i] with
  | false => rw [Bool.false_xor, Bool.false_or]
  | true =>
    rw [hx, Bool.true_and] at hbit
    rw [hbit, Bool.xor_false, Bool.or_false]

/-- Flipping a bit that is 0 adds its power of two. -/
theorem toNat_flip_of_clear {b : Byte} {k : Nat} (hk : k < 8) (hb : b.getLsbD k = false) :
    (b ^^^ (1#8 <<< k)).toNat = b.toNat + 2 ^ k := by
  have hand : b &&& 1#8 <<< k = 0#8 := by rw [← BitVec.twoPow_eq, BitVec.and_twoPow, hb]; rfl
  have hpow : (1#8 <<< k).toNat = 2 ^ k := by
    rw [← BitVec.twoPow_eq, BitVec.toNat_twoPow, Nat.mod_eq_of_lt (Nat.pow_lt_pow_right (by decide) hk)]
  rw [xor_eq_add_of_and_eq_zero hand, BitVec.toNat_add_of_and_eq_zero hand, hpow]

/-- Flipping a bit changes a byte by its power of two. -/
theorem toNat_flip (b : Byte) {k : Nat} (hk : k < 8) :
    (b ^^^ (1#8 <<< k)).toNat = b.toNat + 2 ^ k ∨ b.toNat = (b ^^^ (1#8 <<< k)).toNat + 2 ^ k := by
  cases hb : b.getLsbD k with
  | false => exact .inl (toNat_flip_of_clear hk hb)
  | true =>
    have hclear : (b ^^^ (1#8 <<< k)).getLsbD k = false := by
      rw [← BitVec.twoPow_eq, BitVec.getLsbD_xor, hb, BitVec.getLsbD_twoPow]
      simp [hk]
    have hback := toNat_flip_of_clear hk hclear
    rw [BitVec.xor_assoc, BitVec.xor_self, BitVec.xor_zero] at hback
    exact .inr hback

/-- Settles O52: a flip changes the total by `byteWeight p * 2 ^ k`, which is positive and below 65535. -/
theorem singleBitCorruptionIsDetected : Obligations.SingleBitCorruptionIsDetected := by
  intro p u b k hk h h'
  rw [internetChecksum_eq_zero_iff, reduced_eq_ones_iff, byteTotal_split] at h h'
  have hpos : 0 < 2 ^ k := Nat.two_pow_pos k
  have hlt : 2 ^ k < 2 ^ 8 := Nat.pow_lt_pow_right (by decide) hk
  have hflip := toNat_flip b hk
  obtain hw | hw : byteWeight p = 256 ∨ byteWeight p = 1 := byteWeight_cases p
  all_goals rw [hw] at h h'; omega

/-! ## A checksum stored in its field (R75 g, R83) -/

/-- Adding a word to a total gives all ones exactly where the word complements the sum, or both are all ones. -/
theorem reduced_add_eq_ones_iff {t w : Nat} (hw : w < 65536) :
    reduced (t + w) = 65535 ↔ reduced t + w = 65535 ∨ (reduced t = 65535 ∧ w = 65535) := by
  unfold reduced
  split <;> split <;> omega

/-- A header with a stored checksum checks to 0 exactly where the stored value complements the sum without the field, or
both are all ones. -/
theorem internetChecksum_stored_eq_zero_iff {p : List Byte} (hp : p.length % 2 = 0) (u : List Byte) (hi lo : Byte) :
    internetChecksum (p ++ [hi, lo] ++ u) = 0 ↔
      reduced (byteTotal (p ++ u)) + (hi ++ lo).toNat = 65535 ∨
      (reduced (byteTotal (p ++ u)) = 65535 ∧ (hi ++ lo).toNat = 65535) := by
  have htotal : byteTotal (p ++ [hi, lo] ++ u) = byteTotal (p ++ u) + (hi ++ lo).toNat := by
    rw [List.append_assoc, byteTotal_append p _ hp, byteTotal_word_append, byteTotal_append p u hp]
    omega
  rw [internetChecksum_eq_zero_iff, htotal, reduced_add_eq_ones_iff (hi ++ lo).isLt]

/-- A value is the checksum exactly where it complements the sum. -/
theorem internetChecksum_eq_iff (s : List Byte) (v : Half) :
    internetChecksum s = v ↔ reduced (byteTotal s) + v.toNat = 65535 := by
  have := reduced_lt (byteTotal s)
  rw [← BitVec.toNat_inj, internetChecksum_toNat]
  omega

/-- Settles O53: the zeroed field adds nothing to the sum, which the stored checksum complements. -/
theorem finishedHeaderChecksToZero : Obligations.FinishedHeaderChecksToZero := by
  intro p u hi lo hp _ h
  have hzeroed : internetChecksum (p ++ [0, 0] ++ u) = internetChecksum (p ++ u) :=
    internetChecksum_insert_zeros hp 1 u
  rw [hzeroed, internetChecksum_eq_iff] at h
  exact (internetChecksum_stored_eq_zero_iff hp u hi lo).mpr (.inl h)

/-- Settles O54: the full-sum method accepts what the zeroed-field method does, and the case where both are all ones
(`internetChecksum_stored_eq_zero_iff`). -/
theorem validationMethodsDifferInOneCase : Obligations.ValidationMethodsDifferInOneCase := by
  intro p u hi lo hp _
  have hsum : (ckFeed (0, 0) (p ++ u)).1 = 0xFFFF ↔ reduced (byteTotal (p ++ u)) = 65535 := by
    rw [← ckFeed_sum_toNat]; exact BitVec.toNat_eq
  have hstored : hi ++ lo = 0xFFFF#16 ↔ (hi ++ lo).toNat = 65535 := BitVec.toNat_eq
  rw [hsum, hstored, ne_eq, internetChecksum_eq_iff, internetChecksum_stored_eq_zero_iff hp]
  omega

end Sys2Proof.Machine
end

section
/-! The checksum commands (40_checksum_engine.md R72 to R74 and R78 to R82): what each leaves behind in ACTIVE, and what
that is of the bytes fed. -/

namespace Sys2Proof.Machine

/-! ## What each command leaves behind (R78 to R82) -/

section
variable {s : State} (ha : s.block.status.getLsbD 7 = true)
include ha

theorem exec_ckclr : exec .ckclr s = .next (s.doneWith (s.block.setAccumulator (0, 0))) :=
  exec_of_done rfl ha rfl

theorem exec_ckget (rd : Reg) :
    exec (.ckget rd) s = .next (s.doneWith (s.block.writeReg rd (checksumOf s.block.sum))) :=
  exec_of_done rfl ha rfl

theorem exec_ckvfy (rd : Reg) :
    exec (.ckvfy rd) s = .next (s.doneWith (s.block.writeReg rd (if s.block.sum = 0xFFFF then 1 else 0))) :=
  exec_of_done rfl ha rfl

section
variable {rs1 rs2 : Reg} {bytes : List Byte}
  (hfit : s.block.x[rs1].toNat + s.block.x[rs2].toNat ≤ s.block.flen.toNat)
  (hread : s.block.fb.readSpan s.block.x[rs1].toNat s.block.x[rs2].toNat = some bytes)
include hfit hread

theorem exec_ckadd :
    exec (.ckadd rs1 rs2) s = .next (s.doneWith (s.block.setAccumulator (ckFeed s.block.accumulator bytes))) :=
  exec_of_done rfl ha (Block.readRegion_eq hfit hread)

theorem exec_cksum (rd : Reg) :
    exec (.cksum rd rs1 rs2) s = .next (s.doneWith
      ((s.block.setAccumulator (ckFeed (0, 0) bytes)).writeReg rd (checksumOf (ckFeed (0, 0) bytes).1))) :=
  exec_of_done rfl ha (Block.readRegion_eq hfit hread)

end

/-- A command whose rule is a region read raises OutOfBounds where the region check fails (20_memory.md R34). -/
theorem exec_region_oob {i : Instr} {a l : Nat} {use : List Byte → Block} (hwf : i.wellFormed = true)
    (ho : i ≠ .openCall) (hrule : ruleOf i s.block = s.block.readRegion a l use) (hout : a + l > s.block.flen.toNat) :
    exec i s = .next (s.onlySets 0 .oob) := by
  have hadm : admitted i.op s.block.active = true := by rw [Block.active_eq, ha]; exact (admitted_active i).mpr ho
  rw [← takeException_oob]
  exact exec_of_raise hwf hadm (hrule.trans (Block.readRegion_raise.mpr ⟨hout, rfl⟩))

end

/-- A region that passes its check can be read under the invariants. -/
theorem Inv.read_region {s : State} (hs : Inv s) {rs1 rs2 : Reg}
    (hfit : s.block.x[rs1].toNat + s.block.x[rs2].toNat ≤ s.block.flen.toNat) :
    ∃ bytes, s.block.fb.readSpan s.block.x[rs1].toNat s.block.x[rs2].toNat = some bytes ∧
      bytes.length = s.block.x[rs2].toNat ∧ s.block.HoldsAt s.block.x[rs1].toNat bytes :=
  hs.block.frame.readSpan _ _ hfit

/-! ## The value of `CKGET` (R80, R82) -/

/-- `65535 - SUM` is the one's complement of `SUM`, zero-extended. -/
theorem checksumOf_eq_not (sum : Half) : checksumOf sum = (~~~ sum).setWidth 32 := by
  apply BitVec.eq_of_toNat_eq
  rw [checksumOf, BitVec.toNat_ofNat, BitVec.toNat_setWidth, BitVec.toNat_not]

theorem checksumOf_eq_zero_iff (sum : Half) : checksumOf sum = 0 ↔ sum = 0xFFFF := by
  have hzero : checksumOf sum = 0 ↔ (checksumOf sum).toNat = 0 := BitVec.toNat_eq
  have hones : sum = 0xFFFF ↔ sum.toNat = 65535 := BitVec.toNat_eq
  have := sum.isLt
  rw [hzero, hones, checksumOf, BitVec.toNat_ofNat]
  omega

/-- The value read after a feed is the checksum of the bytes fed (R69, R71). -/
theorem checksumOf_ckFeed (bytes : List Byte) :
    checksumOf (ckFeed (0, 0) bytes).1 = (internetChecksum bytes).setWidth 32 := by
  rw [checksumOf_eq_not, not_ckFeed_sum]

/-! ## The words of the commands (30_encoding.md R57) -/

theorem encode_ckadd_toNat (rs1 rs2 : Reg) :
    (encode (.ckadd rs1 rs2)).toNat = 0x31000000 + rs1.val * 2 ^ 16 + rs2.val * 2 ^ 12 := by
  rw [encode, assemble_toNat, lowRs2_toNat]
  simp [Instr.op, Op.code]

theorem encode_ckget_toNat (rd : Reg) : (encode (.ckget rd)).toNat = 0x32000000 + rd.val * 2 ^ 20 := by
  rw [encode, assemble_toNat]
  simp [Instr.op, Op.code]

theorem encode_ckvfy_toNat (rd : Reg) : (encode (.ckvfy rd)).toNat = 0x33000000 + rd.val * 2 ^ 20 := by
  rw [encode, assemble_toNat]
  simp [Instr.op, Op.code]

theorem encode_cksum_toNat (rd rs1 rs2 : Reg) :
    (encode (.cksum rd rs1 rs2)).toNat =
      0x34000000 + rd.val * 2 ^ 20 + rs1.val * 2 ^ 16 + rs2.val * 2 ^ 12 := by
  rw [encode, assemble_toNat, lowRs2_toNat]
  simp [Instr.op, Op.code]

/-! ## CKCLR, CKADD, CKGET, CKVFY -/

/-- Settles O26: `CKGET` after `CKCLR` reads the complement of 0. -/
theorem ckclrClearsTheAccumulator : Obligations.CkclrClearsTheAccumulator := by
  refine ⟨rfl, fun s ha => ⟨exec_ckclr ha, fun t rd h => ?_⟩⟩
  cases (exec_ckclr ha).symm.trans h
  have hget := exec_ckget (s := s.doneWith (s.block.setAccumulator (0, 0))) ha rd
  exact ⟨_, hget, Block.readReg_writeReg_same _ rd _⟩

/-- Settles O27: under the invariants a region that passes its check is read whole, and a check that fails raises. -/
theorem ckaddFeedsTheRegion : Obligations.CkaddFeedsTheRegion := by
  intro s rs1 rs2
  refine ⟨encode_ckadd_toNat rs1 rs2, fun hs ha hfit => ?_, fun ha hout => exec_region_oob ha rfl nofun rfl hout⟩
  obtain ⟨bytes, hread, hlen, hat⟩ := hs.read_region hfit
  exact ⟨bytes, hlen, hat, exec_ckadd ha hfit hread⟩

/-- Settles O28: what `CKGET` writes is the complement of `SUM`, which `not_ckFeed_sum` names where bytes were fed. -/
theorem ckgetReadsTheChecksum : Obligations.CkgetReadsTheChecksum := by
  intro s rd
  refine ⟨encode_ckget_toNat rd, fun ha => ⟨?_, fun fed hfed => ?_⟩⟩
  · rw [← checksumOf_eq_not]
    exact exec_ckget ha rd
  · rw [← not_ckFeed_sum, ← hfed]

/-- Settles O30: the register holds the test's 1 or 0, and `CKGET` would give 0 exactly where `SUM` is all ones. -/
theorem ckvfyTestsForAllOnes : Obligations.CkvfyTestsForAllOnes := by
  intro s rd
  refine ⟨encode_ckvfy_toNat rd, fun ha => ⟨_, _, exec_ckvfy ha rd, exec_ckget ha rd, ?_⟩⟩
  have hreg (v : Word) : (s.doneWith (s.block.writeReg rd v)).block.x[rd] = v := s.block.readReg_writeReg_same rd v
  rw [hreg, hreg, checksumOf_eq_zero_iff]
  refine ⟨rfl, fun h => if_pos h, fun h => if_neg h, ?_⟩
  by_cases h : s.block.sum = 0xFFFF
  · rw [if_pos h]
    exact ⟨fun _ => h, fun _ => rfl⟩
  · rw [if_neg h]
    exact ⟨nofun, fun hsum => absurd hsum h⟩

/-! ## Regions one after another (R73) -/

/-- Settles O49: feeding the region after the bytes fed before is feeding their concatenation. -/
theorem regionsAreConcatenated : Obligations.RegionsAreConcatenated := by
  refine ⟨fun s t ha h => ?_, fun s fed rs1 rs2 hs ha hfed hfit => ?_⟩
  · cases (exec_ckclr ha).symm.trans h
    rfl
  · obtain ⟨bytes, hread, hlen, hat⟩ := hs.read_region hfit
    refine ⟨_, bytes, exec_ckadd ha hfit hread, hlen, hat, ?_⟩
    rw [ckFeed_append, ← hfed]
    rfl

/-! ## CKSUM (R81, R74) -/

/-- Settles O29: `CKSUM` leaves the feed of its region from a clear accumulator, which `CKCLR` and `CKADD` make in two
steps, and the checksum of it, which `CKGET` reads. -/
theorem cksumIsTheInternetChecksum : Obligations.CksumIsTheInternetChecksum := by
  intro s rd rs1 rs2
  refine ⟨encode_cksum_toNat rd rs1 rs2, fun hs ha hfit => ?_, fun ha hout => exec_region_oob ha rfl nofun rfl hout⟩
  obtain ⟨bytes, hread, hlen, hat⟩ := hs.read_region hfit
  have hsum := exec_cksum ha hfit hread rd
  have hadd := exec_ckadd (s := s.doneWith (s.block.setAccumulator (0, 0))) ha hfit hread
  have hget := exec_ckget
    (s := (s.doneWith (s.block.setAccumulator (0, 0))).doneWith (s.block.setAccumulator (ckFeed (0, 0) bytes))) ha rd
  refine ⟨bytes, hlen, hat, ?_, _, _, _, _, exec_ckclr ha, hadd, hget, hsum, rfl⟩
  rw [hsum, checksumOf_ckFeed]
  rfl

/-- Settles O50: both states read the same span, and nothing else enters what `CKSUM` writes. -/
theorem cksumDependsOnItsRegionOnly : Obligations.CksumDependsOnItsRegionOnly := by
  intro s s' rd rs1 rs2 hs _ ha ha' hfit hfit' hlen hsame
  obtain ⟨bytes, hread, hl, hat⟩ := hs.read_region hfit
  have hread' : s'.block.fb.readSpan s'.block.x[rs1].toNat s'.block.x[rs2].toNat = some bytes := by
    refine (Memory.readSpan_eq_some_iff _ _ _ _).mpr ⟨hlen ▸ hl, fun k hk => ?_⟩
    rw [← hsame k (hl ▸ hk)]
    exact hat k hk
  refine ⟨_, _, exec_cksum ha hfit hread rd, exec_cksum ha' hfit' hread' rd, ?_, rfl, rfl⟩
  exact (Block.readReg_writeReg_same _ rd _).trans (Block.readReg_writeReg_same _ rd _).symm

end Sys2Proof.Machine
end

section
/-! The field readers, the cursor commands and `EXT` (41_field_readers.md R87 to R94). The six commands with a window check
(20_memory.md R33) fail it in one way, `exec_window_oob`, and the five that consume do so in one way, `Block.consume_eq`. -/

namespace Sys2Proof.Machine

/-! ## The words of the commands (30_encoding.md R55) -/

/-- A word of format D, `base` the part its opcode gives. -/
theorem assemble_rd_toNat {op : BitVec 8} {base : Nat} (hbase : op.toNat * 2 ^ 24 = base) (rd : Reg) :
    (assemble op rd 0 0).toNat = base + rd.val * 2 ^ 20 := by
  rw [assemble_toNat, hbase]
  simp

/-- A word of format U, `base` the part its opcode gives. -/
theorem assemble_imm_toNat {op : BitVec 8} {base : Nat} (hbase : op.toNat * 2 ^ 24 = base) (n : Half) :
    (assemble op 0 0 n).toNat = base + n.toNat := by
  rw [assemble_toNat, hbase]
  simp

theorem encode_ext_toNat (rd rs1 : Reg) (lsb : BitVec 5) (width : BitVec 6) :
    (encode (.ext rd rs1 lsb width)).toNat =
      0x12000000 + rd.val * 2 ^ 20 + rs1.val * 2 ^ 16 + lsb.toNat * 2 ^ 8 + width.toNat := by
  rw [encode, assemble_toNat, lowField_toNat, ← Nat.add_assoc]
  simp [Instr.op, Op.code]

/-! ## The window check (20_memory.md R33) -/

theorem Block.checkWindow_of_le {b : Block} {n : Nat} (k : Result) (hn : n ≤ b.rem.toNat) : b.checkWindow n k = k :=
  if_pos hn

theorem Block.checkWindow_of_gt {b : Block} {n : Nat} (k : Result) (hn : n > b.rem.toNat) :
    b.checkWindow n k = .raise .outOfBounds :=
  if_neg (Nat.not_le_of_gt hn)

/-- What consuming from the window leaves, in naturals (10_state.md R19). -/
theorem Block.consume_eq {b : Block} {n : Nat} (hn : n ≤ b.rem.toNat) :
    b.consume n = { b with
      off := BitVec.ofNat 16 (b.off.toNat + n)
      rem := BitVec.ofNat 16 (b.rem.toNat - n) } := by
  rw [Block.consume, Block.off_add_eq, Block.rem_sub_eq hn]

theorem Block.consume_zero (b : Block) : b.consume 0 = b := by
  rw [Block.consume, BitVec.add_zero, BitVec.sub_zero]

/-- Under the invariants the frame holds a byte at every offset of the window. -/
theorem Inv.exists_read_window {s : State} (hs : Inv s) {k : Nat} (hk : k < s.block.rem.toNat) :
    ∃ v, s.block.fb.read (s.block.off.toNat + k) = some v := by
  have hwin := hs.block.window
  exact hs.block.frame.exists_read (by omega)

/-- A command whose rule begins with a window check raises OutOfBounds where the check fails (R86). -/
theorem exec_window_oob {s : State} {i : Instr} {n : Nat} {k : Result} (ha : admitted i.op s.block.active = true)
    (hwf : i.wellFormed = true) (hrule : ruleOf i s.block = s.block.checkWindow n k) (hn : n > s.block.rem.toNat) :
    exec i s = .next (s.onlySets 0 .oob) := by
  rw [← takeException_oob]
  exact exec_of_raise hwf ha (hrule.trans (Block.checkWindow_of_gt k hn))

/-! ## RDU8, RDU16, RDU32 (R87 to R89) -/

/-- `RDU32` in ACTIVE with four bytes left. -/
theorem exec_rdu32 {s : State} {b0 b1 b2 b3 : Byte} (rd : Reg) (ha : s.block.active = true)
    (hn : 4 ≤ s.block.rem.toNat)
    (h0 : s.block.fb.read s.block.off.toNat = some b0) (h1 : s.block.fb.read (s.block.off.toNat + 1) = some b1)
    (h2 : s.block.fb.read (s.block.off.toNat + 2) = some b2) (h3 : s.block.fb.read (s.block.off.toNat + 3) = some b3) :
    exec (.rdu32 rd) s = .next (s.doneWith ((s.block.writeReg rd (fieldValue [b0, b1, b2, b3])).consume 4)) :=
  exec_of_done rfl ha (Block.readWindow_eq hn (Memory.readSpan_cons h0 (Memory.readSpan_cons h1
    (Memory.readSpan_cons h2 (Memory.readSpan_cons h3 rfl)))))

/-- The block a field read leaves, its value and its cursor in naturals. -/
theorem Block.field_eq {b : Block} {n : Nat} (rd : Reg) {bytes : List Byte} {value : Nat} (hv : be bytes = value)
    (hn : n ≤ b.rem.toNat) :
    (b.writeReg rd (fieldValue bytes)).consume n = { b with
      x := b.x.set rd (BitVec.ofNat 32 value)
      off := BitVec.ofNat 16 (b.off.toNat + n)
      rem := BitVec.ofNat 16 (b.rem.toNat - n) } := by
  rw [Block.consume_eq (b := b.writeReg rd (fieldValue bytes)) hn, fieldValue, hv]
  rfl

/-- Settles O20: the window's first byte is the frame's at `OFF`, and a window of none fails the check. -/
theorem rdu8ReadsOneByte : Obligations.Rdu8ReadsOneByte := by
  intro s rd
  refine ⟨assemble_rd_toNat (op := Op.rdu8.code) rfl rd, fun hs ha hn => ?_,
    fun ha hn => exec_window_oob ha rfl rfl hn⟩
  obtain ⟨b0, h0⟩ := hs.exists_read_window (k := 0) (by omega)
  have hbe : be [b0] = b0.toNat := by simp [be]
  refine ⟨b0, h0, ?_⟩
  rw [exec_rdu8 rd ha hn h0, Block.field_eq rd hbe hn]

/-- Settles O21, as `rdu8ReadsOneByte` with two bytes. -/
theorem rdu16ReadsBigEndian : Obligations.Rdu16ReadsBigEndian := by
  intro s rd
  refine ⟨assemble_rd_toNat (op := Op.rdu16.code) rfl rd, fun hs ha hn => ?_,
    fun ha hn => exec_window_oob ha rfl rfl hn⟩
  obtain ⟨b0, h0⟩ := hs.exists_read_window (k := 0) (by omega)
  obtain ⟨b1, h1⟩ := hs.exists_read_window (k := 1) (by omega)
  have hbe : be [b0, b1] = 256 * b0.toNat + b1.toNat := by simp [be, Nat.mul_comm]
  refine ⟨b0, b1, h0, h1, ?_⟩
  rw [exec_rdu16 rd ha hn h0 h1, Block.field_eq rd hbe hn]

/-- Settles O22, as `rdu8ReadsOneByte` with four bytes. -/
theorem rdu32ReadsBigEndian : Obligations.Rdu32ReadsBigEndian := by
  intro s rd
  refine ⟨assemble_rd_toNat (op := Op.rdu32.code) rfl rd, fun hs ha hn => ?_,
    fun ha hn => exec_window_oob ha rfl rfl hn⟩
  obtain ⟨b0, h0⟩ := hs.exists_read_window (k := 0) (by omega)
  obtain ⟨b1, h1⟩ := hs.exists_read_window (k := 1) (by omega)
  obtain ⟨b2, h2⟩ := hs.exists_read_window (k := 2) (by omega)
  obtain ⟨b3, h3⟩ := hs.exists_read_window (k := 3) (by omega)
  have hbe : be [b0, b1, b2, b3] = 16777216 * b0.toNat + 65536 * b1.toNat + 256 * b2.toNat + b3.toNat := by
    simp [be]
    omega
  refine ⟨b0, b1, b2, b3, h0, h1, h2, h3, ?_⟩
  rw [exec_rdu32 rd ha hn h0 h1 h2 h3, Block.field_eq rd hbe hn]

/-! ## RDA (R90) -/

/-- A count the array register can hold is legal (30_encoding.md R61). -/
theorem rda_wellFormed {n : Half} (h1 : 1 ≤ n.toNat) (h16 : n.toNat ≤ 16) : (Instr.rda n).wellFormed = true := by
  rw [Instr.wellFormed, rdaCountOk, decide_eq_true h1, decide_eq_true h16]
  rfl

theorem Block.writeArr_getElem_of_lt (b : Block) {s : List Byte} (i : Fin 16) (hi : i.val < s.length) :
    (b.writeArr s).arr[i] = s[i.val] := by
  simp [hi]

theorem Block.writeArr_getElem_of_ge (b : Block) {s : List Byte} (i : Fin 16) (hi : s.length ≤ i.val) :
    (b.writeArr s).arr[i] = 0 := by
  simp [hi]

/-- The block an array read of `n` bytes leaves, its cursor in naturals. -/
theorem Block.array_eq {b : Block} {n : Nat} {bytes : List Byte} (hlen : bytes.length = n) (hn : n ≤ b.rem.toNat) :
    (b.writeArr bytes).consume n = { b with
      arr := (b.writeArr bytes).arr
      alen := BitVec.ofNat 5 n
      off := BitVec.ofNat 16 (b.off.toNat + n)
      rem := BitVec.ofNat 16 (b.rem.toNat - n) } := by
  have hrem : n ≤ (b.writeArr bytes).rem.toNat := by rwa [Block.writeArr_rem]
  rw [Block.consume_eq hrem, Block.writeArr, hlen]

/-- Settles O23: under the invariants the window's first `n` bytes are read whole, and `ARR` is those bytes with zeros
after them. -/
theorem rdaReadsTheArray : Obligations.RdaReadsTheArray := by
  intro s n h1 h16
  have hwf := rda_wellFormed h1 h16
  refine ⟨assemble_imm_toNat (op := Op.rda.code) rfl n, fun hs ha hn => ?_,
    fun ha hn => exec_window_oob ha hwf rfl hn⟩
  have hwin := hs.block.window
  obtain ⟨bytes, hread, hlen, hat⟩ := hs.block.frame.readSpan s.block.off.toNat n.toNat (by omega)
  have hexec : exec (.rda n) s = .next (s.doneWith ((s.block.writeArr bytes).consume n.toNat)) :=
    exec_of_done hwf ha (Block.readWindow_eq hn hread)
  refine ⟨(s.block.writeArr bytes).arr, ?_, fun i hi => ?_, fun i hi => ?_⟩
  · rw [hexec, Block.array_eq hlen hn]
  · rw [Block.writeArr_getElem_of_lt _ i (hlen ▸ hi)]
    exact hat i.val (hlen ▸ hi)
  · exact Block.writeArr_getElem_of_ge _ i (hlen ▸ hi)

/-! ## SKIP, LIMIT (R91, R92) -/

/-- `SKIP` in ACTIVE with its bytes in the window. -/
theorem exec_skip {s : State} {n : Half} (ha : s.block.active = true) (hn : n.toNat ≤ s.block.rem.toNat) :
    exec (.skip n) s = .next (s.doneWith (s.block.consume n.toNat)) :=
  exec_of_done rfl ha (Block.checkWindow_of_le _ hn)

/-- Settles O24: a `SKIP` consumes where its window check passes, which that of `SKIP 0` always does, and consuming no
byte changes nothing. -/
theorem skipConsumesOpaqueBytes : Obligations.SkipConsumesOpaqueBytes := by
  intro s n
  refine ⟨assemble_imm_toNat (op := Op.skip.code) rfl n, fun _ ha hn => ?_,
    fun ha hn => exec_window_oob ha rfl rfl hn, ?_⟩
  · rw [exec_skip ha hn, Block.consume_eq hn]
  · rintro ha rfl
    have hskip : exec (.skip 0) s = .next (s.doneWith (s.block.consume 0)) := exec_skip ha (Nat.zero_le _)
    rwa [Block.consume_zero] at hskip

/-- Settles O25: the window check is the only condition. -/
theorem limitNarrowsTheWindow : Obligations.LimitNarrowsTheWindow := by
  intro s n
  exact ⟨assemble_imm_toNat (op := Op.limit.code) rfl n,
    fun ha hn => exec_of_done rfl ha (Block.checkWindow_of_le _ hn), fun ha hn => exec_window_oob ha rfl rfl hn⟩

/-! ## EXT (R93) -/

theorem word_div_mod_lt (v : Word) (lsb width : Nat) : v.toNat / 2 ^ lsb % 2 ^ width < 2 ^ 32 :=
  Nat.lt_of_le_of_lt (Nat.mod_le _ _) (Nat.lt_of_le_of_lt (Nat.div_le_self _ _) v.isLt)

/-- Shifting right divides and masking takes the remainder. -/
theorem bitField_eq (v : Word) (lsb : Nat) {width : Nat} (hw : width ≤ 32) :
    bitField v lsb width = BitVec.ofNat 32 (v.toNat / 2 ^ lsb % 2 ^ width) := by
  have hpow : 2 ^ width ≤ 2 ^ 32 := Nat.pow_le_pow_right (by decide) hw
  have hmask : (lowmask width).toNat = 2 ^ width - 1 := by
    rw [lowmask, BitVec.toNat_ofNat, Nat.mod_eq_of_lt (by omega)]
  apply BitVec.eq_of_toNat_eq
  rw [bitField, BitVec.toNat_and, hmask, Nat.and_two_pow_sub_one_eq_mod, BitVec.toNat_ushiftRight,
    Nat.shiftRight_eq_div_pow, BitVec.toNat_ofNat, Nat.mod_eq_of_lt (word_div_mod_lt v lsb width)]

/-- A nonempty field inside the 32-bit source is legal (30_encoding.md R61). -/
theorem ext_wellFormed (rd rs1 : Reg) {lsb : BitVec 5} {width : BitVec 6} (h1 : 1 ≤ width.toNat)
    (hfit : lsb.toNat + width.toNat ≤ 32) : (Instr.ext rd rs1 lsb width).wellFormed = true := by
  rw [Instr.wellFormed, ← Bool.not_eq_false, extFieldOk_eq_false_iff]
  omega

/-- `EXT` in ACTIVE with a legal field. -/
theorem exec_ext {s : State} (rd rs1 : Reg) {lsb : BitVec 5} {width : BitVec 6}
    (ha : s.block.active = true) (h1 : 1 ≤ width.toNat) (hfit : lsb.toNat + width.toNat ≤ 32) :
    exec (.ext rd rs1 lsb width) s = .next (s.doneWith (s.block.writeReg rd
      (BitVec.ofNat 32 (s.block.x[rs1].toNat / 2 ^ lsb.toNat % 2 ^ width.toNat)))) := by
  rw [← bitField_eq _ _ (by omega)]
  exact exec_of_done (ext_wellFormed rd rs1 h1 hfit) ha rfl

/-- Settles O19: the rule shifts and masks, which is `bitField_eq`. -/
theorem extExtractsTheField : Obligations.ExtExtractsTheField := by
  intro s rd rs1 lsb width h1 _ hfit
  exact ⟨encode_ext_toNat rd rs1 lsb width, fun ha => exec_ext rd rs1 ha h1 hfit⟩

/-! ## A packed field (R94) -/

/-- Bits read after a number `a` stand below it. -/
theorem foldl_bits_eq (l : List Bool) (a : Nat) :
    l.foldl (fun n b => 2 * n + b.toNat) a = 2 ^ l.length * a + bitsNumber l := by
  induction l generalizing a with
  | nil => simp [bitsNumber]
  | cons b l ih =>
    rw [bitsNumber, List.foldl_cons, List.foldl_cons, ih, ih (2 * 0 + b.toNat), List.length_cons, Nat.pow_succ]
    ring

theorem bitsNumber_cons (b : Bool) (l : List Bool) : bitsNumber (b :: l) = 2 ^ l.length * b.toNat + bitsNumber l := by
  rw [bitsNumber, List.foldl_cons, foldl_bits_eq, Nat.mul_zero, Nat.zero_add]

/-- Bits that are the low bits of a number, from the most significant down, are the bits of its remainder. -/
theorem bitsNumber_eq_mod {l : List Bool} {n : Nat}
    (h : ∀ k < l.length, l[k]? = some (n.testBit (l.length - 1 - k))) :
    bitsNumber l = n % 2 ^ l.length := by
  induction l with
  | nil => exact (Nat.mod_one n).symm
  | cons b l ih =>
    have hb : b = n.testBit l.length := Option.some.inj (h 0 (Nat.succ_pos _))
    have hl : bitsNumber l = n % 2 ^ l.length := by
      refine ih fun k hk => ?_
      have := h (k + 1) (Nat.succ_lt_succ hk)
      rwa [List.getElem?_cons_succ, List.length_cons, Nat.add_sub_cancel, Nat.sub_add_eq, Nat.sub_right_comm] at this
    rw [bitsNumber_cons, List.length_cons, Nat.mod_pow_succ, hb, hl, Nat.toNat_testBit, Nat.add_comm]

theorem wireBits_length (bytes : List Byte) : (wireBits bytes).length = 8 * bytes.length := by
  induction bytes with
  | nil => rfl
  | cons b bytes ih =>
    rw [wireBits_cons, List.length_append, byteBits_length, ih, List.length_cons, Nat.mul_succ, Nat.add_comm]

/-- A field of the wire's bits is a bit field of the group's big-endian value (R94), `low` bits above its end. -/
theorem bitsNumber_wireBits_field (bytes : List Byte) {p w low : Nat} (hfield : p + w + low = 8 * bytes.length) :
    bitsNumber (((wireBits bytes).drop p).take w) = be bytes / 2 ^ low % 2 ^ w := by
  have hlen : (((wireBits bytes).drop p).take w).length = w := by
    rw [List.length_take, List.length_drop, wireBits_length]
    omega
  have hbits (k : Nat) (hk : k < w) :
      (((wireBits bytes).drop p).take w)[k]? = some ((be bytes / 2 ^ low).testBit (w - 1 - k)) := by
    rw [List.getElem?_take_of_lt hk, List.getElem?_drop, wireBits_getElem? bytes (by omega), Nat.testBit_div_two_pow]
    congr 2
    omega
  have hnumber := bitsNumber_eq_mod (l := ((wireBits bytes).drop p).take w) (n := be bytes / 2 ^ low)
  rw [hlen] at hnumber
  exact hnumber hbits

/-- Settles O57: `EXT` divides and takes the remainder, which on the group's value is the field of the wire's bits. -/
theorem packedFieldByExt : Obligations.PackedFieldByExt := by
  intro s rd rs1 bytes p lsb width ha hbytes hreg h1 hfit hlsb
  refine ⟨_, exec_ext rd rs1 ha h1 (by omega), ?_⟩
  rw [State.doneWith_block]
  calc (s.block.writeReg rd _).x[rd].toNat
    _ = s.block.x[rs1].toNat / 2 ^ lsb.toNat % 2 ^ width.toNat := by
      rw [← Block.readReg, Block.readReg_writeReg_same, BitVec.toNat_ofNat, Nat.mod_eq_of_lt (word_div_mod_lt _ _ _)]
    _ = be bytes / 2 ^ lsb.toNat % 2 ^ width.toNat := by rw [hreg, fieldValue_toNat hbytes]
    _ = bitsNumber (((wireBits bytes).drop p).take width.toNat) := (bitsNumber_wireBits_field bytes (by omega)).symm

end Sys2Proof.Machine
end

section
/-! The statements of 42_frame_and_register_control.md: which commands a mode admits (R101), and `NOP`, `OPEN`, `CLOSE`, `LI`
and `RDC` (R102 to R106). Every SequenceError below is the first clause of `sequenceErrorByMode`. -/

namespace Sys2Proof.Machine

/-! ## The exceptions of a rule (20_memory.md R33, R34) -/

/-- A window check before writes that raise nothing raises OutOfBounds exactly where it fails. -/
theorem Block.checkWindow_raise {b b' : Block} {n : Nat} {e : Exn} :
    b.checkWindow n (.done b') = .raise e ↔ b.rem.toNat < n ∧ e = .outOfBounds := by
  by_cases hn : n ≤ b.rem.toNat
  · rw [Block.checkWindow_of_le _ hn]
    exact ⟨nofun, fun ⟨hlt, _⟩ => absurd hn (Nat.not_le_of_gt hlt)⟩
  · have hlt : b.rem.toNat < n := Nat.lt_of_not_le hn
    rw [Block.checkWindow_of_gt _ hlt, Result.raise.injEq, eq_comm]
    exact ⟨fun h => ⟨hlt, h⟩, And.right⟩

/-- A command with no region is out of bounds exactly where its window check fails. -/
theorem outOfBoundsIn_window_iff {i : Instr} {n : Nat} (hw : windowNeed i = some n) (hr : regionRegs i = none)
    (b : Block) : OutOfBoundsIn i b ↔ b.rem.toNat < n := by
  simp [OutOfBoundsIn, hw, hr]

/-- A command with no window is out of bounds exactly where its region check fails. -/
theorem outOfBoundsIn_region_iff {i : Instr} {rs1 rs2 : Reg} (hw : windowNeed i = none)
    (hr : regionRegs i = some (rs1, rs2)) (b : Block) :
    OutOfBoundsIn i b ↔ b.flen.toNat < b.x[rs1].toNat + b.x[rs2].toNat := by
  simp [OutOfBoundsIn, hw, hr]

/-- The one exception a rule raises is OutOfBounds, and it raises it exactly where a bounds check of the command fails. -/
theorem ruleOf_raise_iff {i : Instr} {b : Block} {e : Exn} :
    ruleOf i b = .raise e ↔ OutOfBoundsIn i b ∧ e = .outOfBounds := by
  cases i with
  | nop | openCall | closeCall | li | rdc | ext | ckclr | ckget | ckvfy =>
    simp [ruleOf, OutOfBoundsIn, windowNeed, regionRegs]
  | rdu8 | rdu16 | rdu32 | rda =>
    rw [outOfBoundsIn_window_iff rfl rfl]
    exact Block.readWindow_raise
  | skip | limit =>
    rw [outOfBoundsIn_window_iff rfl rfl]
    exact Block.checkWindow_raise
  | ckadd | cksum =>
    rw [outOfBoundsIn_region_iff rfl rfl]
    exact Block.readRegion_raise

/-! ## Admission by mode (R101) -/

/-- The commands a block admits, by its mode. -/
theorem admitted_iff (i : Instr) (b : Block) :
    admitted i.op b.active = true ↔
      (b.status.getLsbD 7 = false ∧ (i = .nop ∨ i = .openCall ∨ i = .closeCall)) ∨
      (b.status.getLsbD 7 = true ∧ i ≠ .openCall) := by
  rw [Block.active_eq]
  cases b.status.getLsbD 7 with
  | false => simp [admitted_idle]
  | true => simp [admitted_active]

/-- The commands a block refuses, by its mode. -/
theorem not_admitted_iff (i : Instr) (b : Block) :
    admitted i.op b.active = false ↔
      (b.status.getLsbD 7 = false ∧ i ≠ .nop ∧ i ≠ .openCall ∧ i ≠ .closeCall) ∨
      (b.status.getLsbD 7 = true ∧ i = .openCall) := by
  rw [← Bool.not_eq_true, admitted_iff]
  cases b.status.getLsbD 7 with
  | false => simp
  | true => simp

/-- An admitted legal command never completes with SEQ: its rule completes, or raises OutOfBounds. -/
theorem exec_results_ne_seq {i : Instr} {s t : State} (hwf : i.wellFormed = true)
    (ha : admitted i.op s.block.active = true) (h : exec i s = .next t) : t.results ≠ s.results ++ [.completed .seq] := by
  obtain ⟨hill, -⟩ | ⟨-, hseq, -⟩ | ⟨-, -, ⟨b, -, rfl⟩ | ⟨e, hraise, rfl⟩⟩ := exec_cases h
  · exact absurd (hwf.symm.trans hill) nofun
  · exact absurd (ha.symm.trans hseq) nofun
  · simp
  · obtain ⟨-, rfl⟩ := ruleOf_raise_iff.mp hraise
    simp [Exn.code]

/-- Settles O33: the two hypotheses are the commands the mode refuses and those it admits. -/
theorem sequenceErrorByMode : Obligations.SequenceErrorByMode := by
  intro i s hwf
  exact ⟨fun h => exec_of_not_admitted hwf ((not_admitted_iff i s.block).mpr h),
    fun h _ => exec_results_ne_seq hwf ((admitted_iff i s.block).mpr h)⟩

/-! ## NOP, OPEN, CLOSE (R102 to R104) -/

/-- Settles O14: `NOP` is admitted in both modes, and its rule gives the block back. -/
theorem nopDoesNothing : Obligations.NopDoesNothing :=
  ⟨rfl, fun _ => exec_of_done rfl rfl rfl⟩

/-- Settles O15: IDLE admits `OPEN`, ACTIVE refuses it. -/
theorem openBeginsACall : Obligations.OpenBeginsACall := by
  refine ⟨rfl, fun s => ⟨fun hidle => ?_, fun ha => (sequenceErrorByMode .openCall s rfl).1 (.inr ⟨ha, rfl⟩)⟩⟩
  have hadm : admitted Instr.openCall.op s.block.active = true :=
    (admitted_iff .openCall s.block).mpr (.inl ⟨hidle, .inr (.inl rfl)⟩)
  exact exec_of_done rfl hadm rfl

/-- Settles O16: `CLOSE` leaves the reset block, whose values are R25's. -/
theorem closeForgetsEverything : Obligations.CloseForgetsEverything :=
  ⟨rfl, fun s => ⟨Block.reset, exec_closeCall s, resetAndCloseValues Block.reset (.inl rfl)⟩⟩

/-! ## LI, RDC (R105, R106) -/

/-- A word of format I, `base` the part its opcode gives (30_encoding.md R55). -/
theorem assemble_rd_low_toNat {op : BitVec 8} {base : Nat} (hbase : op.toNat * 2 ^ 24 = base) (rd : Reg) (low : Half) :
    (assemble op rd 0 low).toNat = base + rd.val * 2 ^ 20 + low.toNat := by
  rw [assemble_toNat, hbase]
  simp

/-- Settles O17: `LI` is admitted in ACTIVE alone, and zero-extension keeps the number. -/
theorem liLoadsTheImmediate : Obligations.LiLoadsTheImmediate := by
  intro s rd imm16
  refine ⟨assemble_rd_low_toNat (op := Op.li.code) rfl rd imm16, fun ha => ?_,
    fun hidle => (sequenceErrorByMode (.li rd imm16) s rfl).1 (.inl ⟨hidle, nofun, nofun, nofun⟩)⟩
  rw [BitVec.ofNat_toNat]
  exact exec_of_done rfl ha rfl

/-- Settles O18: `RDC` writes what the register of its number reads as (`Block.readCsr_toNat_of_number`); of `STATUS` that
has bit 7 set, since the block is in ACTIVE. -/
theorem rdcReadsTheControlRegister : Obligations.RdcReadsTheControlRegister := by
  intro s rd csr
  obtain ⟨hstatus, hothers⟩ := s.block.readCsr_toNat_of_number csr
  refine ⟨assemble_rd_low_toNat (op := Op.rdc.code) rfl rd csr.number, fun ha => ?_,
    fun hidle => (sequenceErrorByMode (.rdc rd csr) s rfl).1 (.inl ⟨hidle, nofun, nofun, nofun⟩)⟩
  refine ⟨s.block.readCsr csr, exec_of_done rfl ha rfl, fun h => ⟨hstatus h, ?_⟩, hothers⟩
  rw [← BitVec.testBit_toNat, hstatus h, BitVec.testBit_toNat]
  exact ha

end Sys2Proof.Machine
end

section
/-! The statements of 60_exceptions.md: the completion codes (R110), OutOfBounds (R113), the priority of the exceptions (R117),
the sticky bits (R115) and the modes (R121). R113 and R117 rest on what a rule raises (`ruleOf_raise_iff`), R115 and R121 on
what a step can do to STATUS, said once in `step_status`. -/

namespace Sys2Proof.Machine

/-! ## OutOfBounds and the priority of the exceptions (R113, R117) -/

/-- An admitted legal command whose bounds check fails. -/
theorem exec_of_outOfBoundsIn {i : Instr} {s : State} (hwf : i.wellFormed = true)
    (ha : admitted i.op s.block.active = true) (ho : OutOfBoundsIn i s.block) :
    exec i s = .next (s.onlySets 0 .oob) := by
  rw [← takeException_oob]
  exact exec_of_raise hwf ha (ruleOf_raise_iff.mpr ⟨ho, rfl⟩)

/-- `OPEN` has no bounds check, so ACTIVE admits every command whose check fails. -/
theorem admitted_of_outOfBoundsIn {i : Instr} {b : Block} (ho : OutOfBoundsIn i b) (ha : b.status.getLsbD 7 = true) :
    admitted i.op b.active = true := by
  refine (admitted_iff i b).mpr (.inr ⟨ha, ?_⟩)
  rintro rfl
  cases ruleOf_raise_iff.mpr ⟨ho, rfl⟩

/-- A legal command that completes with OOB has ended in its rule's exception. -/
theorem outOfBoundsIn_of_results {i : Instr} {s t : State} (hwf : i.wellFormed = true) (h : exec i s = .next t)
    (hr : t.results = s.results ++ [.completed .oob]) : s.block.active = true ∧ OutOfBoundsIn i s.block := by
  obtain ⟨hill, -⟩ | ⟨-, -, rfl⟩ | ⟨-, ha, ⟨b, -, rfl⟩ | ⟨e, hraise, -⟩⟩ := exec_cases h
  · cases hwf.symm.trans hill
  · simp at hr
  · simp at hr
  · exact ⟨active_of_ruleOf_raise ha hraise, (ruleOf_raise_iff.mp hraise).1⟩

/-- Settles O34: a failed check raises OutOfBounds in an admitted command, and nothing else completes with OOB. -/
theorem outOfBoundsExactly : Obligations.OutOfBoundsExactly := by
  intro i s hwf
  exact ⟨fun ha ho => exec_of_outOfBoundsIn hwf (admitted_of_outOfBoundsIn ho ha) ho,
    fun _ h hr => outOfBoundsIn_of_results hwf h hr⟩

/-- Settles O35: a word that decodes is well formed, and then admission is decided before the rule's own check. -/
theorem exceptionPriority : Obligations.ExceptionPriority := by
  intro s w rest hp
  refine ⟨fun hill => step_of_isIllegal hill hp, fun i hd ha => ?_, fun i hd ha ho => ?_⟩
  all_goals
    obtain ⟨hwf, -⟩ := encodeOfDecode w i hd
    rw [stepRunsDecodedCommand s w rest i hp hd]
  · exact exec_of_not_admitted hwf ha
  · exact exec_of_outOfBoundsIn hwf ha ho

/-! ## No rule stops under the invariants (10_state.md R24) -/

theorem Block.checkWindow_ne_stop {b b' : Block} {n : Nat} {f : Fault} : b.checkWindow n (.done b') ≠ .stop f := by
  unfold Block.checkWindow
  split
  · nofun
  · nofun

section
variable {b : Block} {cap : Nat} (hb : b.Inv cap) {use : List Byte → Block} {f : Fault}
include hb

/-- The window lies in the frame, so a read that passes its check finds its bytes. -/
theorem Block.Inv.readWindow_ne_stop {n : Nat} : b.readWindow n use ≠ .stop f := by
  have hwin := hb.window
  by_cases hn : n ≤ b.rem.toNat
  · obtain ⟨bytes, hread, -⟩ := hb.frame.readSpan b.off.toNat n (by omega)
    rw [Block.readWindow_eq hn hread]
    nofun
  · rw [Block.readWindow_raise.mpr ⟨Nat.lt_of_not_le hn, rfl⟩]
    nofun

/-- A region that passes its check lies in the frame. -/
theorem Block.Inv.readRegion_ne_stop {a l : Nat} : b.readRegion a l use ≠ .stop f := by
  by_cases hl : a + l ≤ b.flen.toNat
  · obtain ⟨bytes, hread, -⟩ := hb.frame.readSpan a l hl
    rw [Block.readRegion_eq hl hread]
    nofun
  · rw [Block.readRegion_raise.mpr ⟨Nat.lt_of_not_le hl, rfl⟩]
    nofun

theorem Block.Inv.ruleOf_ne_stop (i : Instr) : ruleOf i b ≠ .stop f := by
  cases i with
  | nop | openCall | closeCall | li | rdc | ext | ckclr | ckget | ckvfy => nofun
  | rdu8 | rdu16 | rdu32 | rda => exact hb.readWindow_ne_stop
  | skip | limit => exact Block.checkWindow_ne_stop
  | ckadd | cksum => exact hb.readRegion_ne_stop

end

/-- Under the invariants every legal command completes. -/
theorem exists_exec_next_of_inv {s : State} (hs : Inv s) {i : Instr} (hwf : i.wellFormed = true) :
    ∃ t, exec i s = .next t := by
  cases ha : admitted i.op s.block.active with
  | false => exact ⟨_, exec_of_not_admitted hwf ha⟩
  | true =>
    cases hr : ruleOf i s.block with
    | done b => exact ⟨_, exec_of_done hwf ha hr⟩
    | raise e => exact ⟨_, exec_of_raise hwf ha hr⟩
    | stop f => exact absurd hr (hs.block.ruleOf_ne_stop i)

/-- Under the invariants HostCommand completes, whatever the word. -/
theorem exists_hostCommand_next_of_inv {s : State} (hs : Inv s) (w : Word) : ∃ t, hostCommand w s = .next t := by
  obtain ⟨-, hc⟩ | ⟨i, hd, hc⟩ := hostCommand_cases w s
  · exact ⟨_, hc⟩
  · rw [hc]
    exact exists_exec_next_of_inv hs (encodeOfDecode w i hd).1

/-! ## The four completion codes (R110) -/

/-- All HostCommand can come to: an exception, or the writes of the rule of the instruction its word decodes to. -/
theorem hostCommand_outcome {w : Word} {s t : State} (h : hostCommand w s = .next t) :
    (∃ e, t = takeException e s) ∨ (∃ i b, decode w = .ok i ∧ t = s.doneWith b ∧ Writes s.block i b) := by
  obtain ⟨-, hc⟩ | ⟨i, hd, hc⟩ := hostCommand_cases w s
  · cases hc.symm.trans h
    exact .inl ⟨.illegalCommand, rfl⟩
  · obtain ⟨e, ht, -⟩ | ⟨b, ht, -, -, hw⟩ := exec_outcome (hc.symm.trans h)
    · exact .inl ⟨e, ht⟩
    · exact .inr ⟨i, b, hd, ht, hw⟩

/-- Settles O31: HostCommand completes with DONE, or with the code and the bit of one of the three exceptions. -/
theorem everyCommandReturnsOneCode : Obligations.EveryCommandReturnsOneCode := by
  intro s w rest hp
  have hstep : step s = hostCommand w { s with pending := rest } := step_of_pending hp
  rw [hstep]
  refine ⟨fun hs => ?_, fun t h => ?_⟩
  · have hs' : Inv { s with pending := rest } := ⟨hs.block, hs.frameCap⟩
    exact exists_hostCommand_next_of_inv hs' w
  · obtain ⟨e, rfl⟩ | ⟨i, b, -, rfl, -⟩ := hostCommand_outcome h
    · cases e with
      | outOfBounds => exact ⟨.oob, rfl, by decide, fun _ => rfl, nofun, nofun⟩
      | illegalCommand => exact ⟨.ill, rfl, by decide, nofun, fun _ => rfl, nofun⟩
      | sequenceError => exact ⟨.seq, rfl, by decide, nofun, nofun, fun _ => rfl⟩
    · exact ⟨.done, rfl, by decide, nofun, nofun, nofun⟩

/-! ## What a step does to STATUS (R115, R121) -/

theorem Block.reset_getLsbD (k : Nat) : Block.reset.status.getLsbD k = false := BitVec.getLsbD_zero

/-- No exception is the mode's bit. -/
theorem Exn.flag_ne_act (e : Exn) : e.flag ≠ .act := by cases e <;> decide

/-- A flag that is not `ACT` leaves the mode. -/
theorem Block.setFlag_act {f : Flag} (hf : f ≠ .act) (b : Block) :
    (b.setFlag f).status.getLsbD 7 = b.status.getLsbD 7 := by
  have hbit : 7 ≠ f.bit := by
    cases f with
    | act => exact absurd rfl hf
    | oob | ill | seq | wrerr => decide
  rw [Block.setFlag_getLsbD, decide_eq_false hbit, Bool.or_false]

/-- A flag clears no bit. -/
theorem Block.setFlag_bit_kept (b : Block) (f : Flag) {k : Nat} (hk : b.status.getLsbD k = true) :
    (b.setFlag f).status.getLsbD k = true := by
  rw [Block.setFlag_getLsbD, hk, Bool.true_or]

/-- A command writes STATUS as a whole by `CLOSE`, sets `ACT` by `OPEN`, and leaves it otherwise. -/
theorem Writes.status_cases {b b' : Block} {i : Instr} (hw : Writes b i b') :
    (i = .closeCall ∧ b' = Block.reset) ∨ (i = .openCall ∧ b'.status = (b.setFlag .act).status) ∨
    b'.status = b.status := by
  cases hw with
  | closeCall => exact .inl ⟨rfl, rfl⟩
  | openCall => exact .inr (.inl ⟨rfl, rfl⟩)
  | nop | reg | field | rda | skip | limit | ckclr | ckadd | cksum => exact .inr (.inr rfl)

/-- The host action the next step performs is an `OPEN` command. -/
def State.Opens (s : State) : Prop :=
  ∃ w, s.pending.head? = some (.command w) ∧ decode w = .ok .openCall

/-- `StatusStep s t`: what a step from `s` to `t` does to STATUS, with the host action that does it. -/
inductive StatusStep (s t : State) : Prop
  | ends (he : s.EndsCall) (hb : t.block = Block.reset)
  | opens (ho : s.Opens) (hst : t.block.status = (s.block.setFlag .act).status)
  | same (hst : t.block.status = s.block.status)
  /-- The bit of an exception, or `WRERR`. -/
  | sticky {f : Flag} (hf : f ≠ .act) (hst : t.block.status = (s.block.setFlag f).status)

/-- All a step can do to STATUS. -/
theorem step_status {s t : State} (h : step s = .next t) : StatusStep s t := by
  obtain ⟨-, hstep⟩ | ⟨a, rest, hp, hstep⟩ := step_cases s
  · cases hstep.symm.trans h
    exact .same rfl
  · have hhead : s.pending.head? = some a := by rw [hp, List.head?_cons]
    have hperform : perform a { s with pending := rest } = .next t := hstep.symm.trans h
    cases a with
    | push v =>
      cases hperform
      obtain ⟨-, -, hpush⟩ | ⟨-, hpush⟩ := hostPush_cases v { s with pending := rest }
      · exact .same (by rw [hpush])
      · exact .sticky (f := .wrerr) nofun (by rw [hpush])
    | command w =>
      obtain ⟨e, rfl⟩ | ⟨i, b, hd, rfl, hw⟩ := hostCommand_outcome hperform
      · exact .sticky e.flag_ne_act rfl
      · obtain ⟨rfl, hb⟩ | ⟨rfl, hst⟩ | hst := hw.status_cases
        · exact .ends (.inr ⟨w, hhead, hd⟩) hb
        · exact .opens ⟨w, hhead, hd⟩ hst
        · exact .same hst
    | read target => cases hperform; exact .same rfl
    | reset => cases hperform; exact .ends (.inl hhead) rfl

/-- A reset and a `CLOSE` both leave the reset block, in either mode (70_reset_and_hazards.md R127). -/
theorem State.EndsCall.block_eq_reset {s t : State} (he : s.EndsCall) (h : step s = .next t) :
    t.block = Block.reset := by
  obtain hhead | ⟨w, hhead, hd⟩ := he
  · obtain ⟨rest, hp⟩ := List.head?_eq_some_iff.mp hhead
    cases (step_of_pending hp).symm.trans h
    rfl
  · obtain ⟨rest, hp⟩ := List.head?_eq_some_iff.mp hhead
    rw [stepRunsDecodedCommand s w rest .closeCall hp hd, exec_closeCall] at h
    cases h
    rfl

/-- No step that leaves the call on clears a bit of STATUS. -/
theorem status_bit_kept {s t : State} (hend : ¬ s.EndsCall) (h : step s = .next t) {k : Nat}
    (hk : s.block.status.getLsbD k = true) : t.block.status.getLsbD k = true := by
  cases step_status h with
  | ends he => exact absurd he hend
  | same hst => rwa [hst]
  | opens _ hst | sticky _ hst =>
    rw [hst]
    exact s.block.setFlag_bit_kept _ hk

/-- Settles O36: a step that ends the call leaves the reset block, and no other clears a bit. -/
theorem stickyBitsStay : Obligations.StickyBitsStay := by
  intro s t h
  refine ⟨fun hend k _ hk => status_bit_kept hend h hk, fun he k _ => ?_⟩
  rw [he.block_eq_reset h]
  exact Block.reset_getLsbD k

/-- An `OPEN` in IDLE enters ACTIVE. -/
theorem State.Opens.active {s t : State} (ho : s.Opens) (hidle : s.block.status.getLsbD 7 = false)
    (h : step s = .next t) : t.block.status.getLsbD 7 = true := by
  obtain ⟨w, hhead, hd⟩ := ho
  obtain ⟨rest, hp⟩ := List.head?_eq_some_iff.mp hhead
  rw [stepRunsDecodedCommand s w rest .openCall hp hd, (openBeginsACall.2 { s with pending := rest }).1 hidle] at h
  cases h
  simp

/-- Nothing but an `OPEN` enters ACTIVE. -/
theorem opens_of_active {s t : State} (hidle : s.block.status.getLsbD 7 = false) (h : step s = .next t)
    (ha : t.block.status.getLsbD 7 = true) : s.Opens := by
  cases step_status h with
  | opens ho => exact ho
  | ends _ hb =>
    rw [hb, Block.reset_getLsbD] at ha
    cases ha
  | same hst =>
    rw [hst, hidle] at ha
    cases ha
  | sticky hf hst =>
    rw [hst, Block.setFlag_act hf, hidle] at ha
    cases ha

/-- Settles O37: `ACT` is set by `OPEN` alone, and cleared, with all of STATUS, by what ends the call alone. -/
theorem modeTransitions : Obligations.ModeTransitions := by
  intro s t h
  refine ⟨fun hidle => ⟨opens_of_active hidle h, fun ho => State.Opens.active ho hidle h⟩,
    fun hact => ⟨fun hidle => ?_, fun he => ?_⟩⟩
  · by_contra hend
    cases hidle.symm.trans (status_bit_kept hend h hact)
  · rw [he.block_eq_reset h]
    exact Block.reset_getLsbD 7

end Sys2Proof.Machine
end

section
/-! The statements of 70_reset_and_hazards.md: reset and `CLOSE` (R127), no stall (R135), and calls that do not interfere
(R129). R129 rests on two facts: what was returned before is never read (`AppendsResults`, log entry 3), and a step that ends
the call does not read the block (`State.EndsCall.step_withBlock`). -/

namespace Sys2Proof.Machine

/-! ## Reset and CLOSE (R127, R128) -/

/-- Settles O13: both put `Block.reset` in the place of the block. -/
theorem hostResetEqualsClose : Obligations.HostResetEqualsClose := by
  intro s t rest hp hclose
  cases (exec_closeCall s).symm.trans hclose
  exact ⟨step_of_pending hp, rfl⟩

/-! ## The block is never stuck (R135) -/

/-- Under the invariants each of the four host actions (20_memory.md R42) has a next state. -/
theorem exists_perform_next_of_inv {s : State} (hs : Inv s) (a : HostAction) : ∃ t, perform a s = .next t := by
  cases a with
  | push b => exact ⟨hostPush b s, rfl⟩
  | command w => exact exists_hostCommand_next_of_inv hs w
  | read target => exact ⟨hostRead target s, rfl⟩
  | reset => exact ⟨hostReset s, rfl⟩

/-- Settles O40: a step is nothing at all or one host action, which has a next state under the invariants. -/
theorem blockIsNeverStuck : Obligations.BlockIsNeverStuck := by
  intro s hs
  obtain ⟨-, hstep⟩ | ⟨a, rest, -, hstep⟩ := step_cases s
  · exact ⟨s, hstep⟩
  · have hs' : Inv { s with pending := rest } := ⟨hs.block, hs.frameCap⟩
    rw [hstep]
    exact exists_perform_next_of_inv hs' a

/-! ## What was returned before is never read (log entry 3) -/

/-- `s` with another record of what was returned before. -/
def State.withResults (s : State) (past : List HostResult) : State := { s with results := past }

@[simp] theorem State.withResults_block (s : State) (past : List HostResult) : (s.withResults past).block = s.block := rfl
@[simp] theorem State.withResults_frameCap (s : State) (past : List HostResult) : (s.withResults past).frameCap = s.frameCap := rfl

/-- `act` appends to what was returned before, and neither what it appends nor what else it does depends on that. -/
def AppendsResults (act : State → Host.Outcome State Fault Refusal) : Prop :=
  ∀ s t : State, act s = .next t → ∃ new : List HostResult, t.results = s.results ++ new ∧
    ∀ past : List HostResult, act (s.withResults past) = .next (t.withResults (past ++ new))

/-- An ill-formed instruction completes as an illegal one (log entry 5). -/
theorem exec_of_not_wellFormed {i : Instr} {s : State} (hwf : i.wellFormed = false) :
    exec i s = .next (s.onlySets 1 .ill) := by
  rw [exec_eq_runCommand, runCommand, if_neg (by simp [hwf])]; rfl

/-- Which of its four ends a command comes to depends on the block alone. -/
theorem exec_appendsResults (i : Instr) : AppendsResults (exec i) := by
  intro s t h
  obtain ⟨hwf, rfl⟩ | ⟨hwf, ha, rfl⟩ | ⟨hwf, ha, ⟨b, hr, rfl⟩ | ⟨e, hr, rfl⟩⟩ := exec_cases h
  · exact ⟨_, rfl, fun _ => exec_of_not_wellFormed hwf⟩
  · exact ⟨_, rfl, fun _ => exec_of_not_admitted hwf ha⟩
  · exact ⟨_, rfl, fun _ => exec_of_done hwf ha hr⟩
  · exact ⟨_, rfl, fun _ => exec_of_raise hwf ha hr⟩

theorem hostCommand_appendsResults (w : Word) : AppendsResults (hostCommand w) := by
  unfold hostCommand
  cases decode w with
  | ok i => exact exec_appendsResults i
  | error _ => rintro s _ ⟨⟩; exact ⟨_, rfl, fun _ => rfl⟩

/-- Whether a push is accepted depends on the block and `FRAME_CAP` alone. -/
theorem hostPush_appendsResults (b : Byte) : AppendsResults fun s => .next (hostPush b s) := by
  rintro s _ ⟨⟩
  simp only [hostPush, State.withResults_block, State.withResults_frameCap]
  split
  next hroom => exact ⟨[.accepted], rfl, fun _ => congrArg _ (if_pos hroom)⟩
  next hroom => exact ⟨[.refused], rfl, fun _ => congrArg _ (if_neg hroom)⟩

theorem perform_appendsResults (a : HostAction) : AppendsResults (perform a) := by
  cases a with
  | push b => exact hostPush_appendsResults b
  | command w => exact hostCommand_appendsResults w
  | read target => rintro s _ ⟨⟩; exact ⟨_, rfl, fun _ => rfl⟩
  | reset => rintro s _ ⟨⟩; exact ⟨[], (List.append_nil _).symm, fun past => by rw [List.append_nil]; rfl⟩

theorem step_appendsResults : AppendsResults step := by
  intro s t h
  obtain ⟨hp, hstep⟩ | ⟨a, rest, hp, hstep⟩ := step_cases s
  · cases hstep.symm.trans h
    refine ⟨[], (List.append_nil _).symm, fun past => ?_⟩
    rw [List.append_nil]
    exact noActionChangesNothing _ hp
  · obtain ⟨new, hnew, hpast⟩ := perform_appendsResults a _ t (hstep.symm.trans h)
    exact ⟨new, hnew, fun past => (step_of_pending (s := s.withResults past) hp).trans (hpast past)⟩

theorem run_appendsResults (k : Nat) : AppendsResults (Host.Core.run Sys2Proof.core k) := by
  induction k with
  | zero =>
    rintro s _ ⟨⟩
    exact ⟨[], (List.append_nil _).symm, fun past => by rw [List.append_nil]; rfl⟩
  | succ k ih =>
    intro s t h
    obtain ⟨u, hstep, hrun⟩ := run_succ_eq_next h
    obtain ⟨first, hfirst, hstep'⟩ := step_appendsResults s u hstep
    obtain ⟨new, hnew, hrun'⟩ := ih u t hrun
    refine ⟨first ++ new, by rw [hnew, hfirst, List.append_assoc], fun past => ?_⟩
    rw [run_succ_of_next k (hstep' past), hrun', List.append_assoc]

/-! ## Calls do not interfere (R129) -/

/-- A reset and a `CLOSE` do the same whatever the block holds. -/
theorem State.EndsCall.step_withBlock {s : State} (he : s.EndsCall) (b : Block) :
    step { s with block := b } = step s := by
  obtain hhead | ⟨w, hhead, hd⟩ := he
  all_goals obtain ⟨rest, hp⟩ := List.head?_eq_some_iff.mp hhead
  · calc step { s with block := b } = .next { s with block := Block.reset, pending := rest } :=
          step_of_pending (s := { s with block := b }) hp
      _ = step s := (step_of_pending hp).symm
  · rw [stepRunsDecodedCommand s w rest .closeCall hp hd,
      stepRunsDecodedCommand { s with block := b } w rest .closeCall hp hd, exec_closeCall, exec_closeCall]
    rfl

/-- Settles O59: `s'` is `s` with another block, which the first step does not read, and with other results before it, which
no step reads. -/
theorem callsDoNotInterfere : Obligations.CallsDoNotInterfere := by
  intro s s' t k he hcap hpending h
  have hs' : s' = State.withResults { s with block := s'.block } s'.results := by
    rw [State.withResults, hcap, hpending]
  obtain ⟨u, hstep, hrun⟩ := run_succ_eq_next h
  have hblock : Host.Core.run Sys2Proof.core (k + 1) { s with block := s'.block } = .next t :=
    (run_succ_of_next k ((he.step_withBlock s'.block).trans hstep)).trans hrun
  obtain ⟨new, hnew, hpast⟩ := run_appendsResults (k + 1) _ t hblock
  refine ⟨t.withResults (s'.results ++ new), new, ?_, rfl, rfl, hnew, rfl⟩
  rw [hs']
  exact hpast s'.results

end Sys2Proof.Machine
end
